-- ==== Sys2Proof/Word.lean ====
section
/-! DEFINITION. The word and byte types of CHACHA-CORE (R8: WORD is 32 bits, unsigned; R45: memory is bytes). -/

namespace Sys2Proof

/-- A 32-bit unsigned word (R8). Its `+` is the spec's `+32` (R70). -/
abbrev Word := BitVec 32

/-- A byte (R45). -/
abbrev Byte := BitVec 8

end Sys2Proof
end

