-- ==== Sys2Proof/Config.lean ====
section
/-! DEFINITION. What the platform fixes (R10) and the free values the spec leaves open (R41).
The other open parameters of R10 reach no step of the model: cmd_latency (log 11), multi_host (log 10);
bus_error_response is a fault (log 9). -/

namespace Sys2Proof

/-- The platform's parameters (R10, R50). State carries one and no step changes it. -/
structure Config where
  /-- The highest data memory address, so that MEM_SIZE = `memTop` + 1 and 1 ≤ MEM_SIZE ≤ 2^32 (R10). -/
  memTop : Word
  /-- REG_BASE, the base of the register window in the host's address map (R10, R59; log 12). -/
  regBase : Nat
  /-- The host address of data memory byte 0 (R50; log 12). -/
  memBase : Nat
deriving DecidableEq, Repr

/-- MEM_SIZE, the size of data memory in bytes (R10). -/
def Config.memSize (c : Config) : Nat := c.memTop.toNat + 1

/-- The platform's own highest data memory address: a parameter the spec leaves open (R10, D25; log 5).
It has no body, so no proof knows which size the platform has. -/
opaque Config.platformMemTop : Word

/-- The platform's own REG_BASE (R10, D3; log 12), without a body like `platformMemTop`. -/
opaque Config.platformRegBase : Nat

/-- The platform's own host address of data memory byte 0 (R50; log 12), without a body like `platformMemTop`. -/
opaque Config.platformMemBase : Nat

/-- The bytes drawn for data memory that holds an unspecified value (R41; log 4). It has no body: the model
applies it to the draw counter of State, and nothing can be proved of the byte it gives. -/
opaque Config.freeByte : Nat → Byte

end Sys2Proof
end

