-- ==== Sys2Proof/Syntax.lean ====
section
/-! DEFINITION. The instructions: one constructor per row of spec/opcode_table.json (R60). A command word has no
operand field (R56): the operands are the argument registers, sampled when the command starts (R57, R146). -/

namespace Sys2Proof

/-- The four commands of R60. -/
inductive Instr where
  /-- INIT, the source's construct(key, nonce, roundCount) (R91). -/
  | init
  /-- SEEK, the source's seek(blockIndex) (R94). -/
  | seek
  /-- READ, the source's fillBytes(buffer) (R97). -/
  | read
  /-- XOR, the source's applyXor(input, output) (R100). -/
  | xor
deriving DecidableEq, Repr

end Sys2Proof
end

