-- ==== Sys2Proof/Machine/HostOp.lean ====
section
/-! DEFINITION. The host's side of the interface: the slots of the register window (R59), the bus operations of a
host program (R64, R66, R68, R115, R117, R140, R141), and the lines of a host script as they are written down
(R64, R65, R67). -/

namespace Sys2Proof.Machine

/-- The width of a host access to the register window. Only `word` is defined; the others are bus errors (R46, R115).
DESIGN CHOICE (log 9): R115 lists byte, halfword and misaligned 32-bit accesses and does not say which widths a host bus
can issue. The model lets it issue one wider than 32 bits too, `wide`, and takes R115's first sentence for it: an access
that is not a 32-bit access is a bus error. -/
inductive AccessWidth where
  | byte
  | half
  | word
  | wide
deriving DecidableEq, Repr

/-- The 64 word slots of the register window (R59): the 22 named registers and the 42 reserved slots at offsets
0x58..0xFC. -/
inductive Slot where
  | key (i : Fin 8)
  | nonce0
  | nonce1
  | rounds
  | seekLo
  | seekHi
  | src
  | dst
  | len
  | cmd
  | status
  | count
  | ctrLo
  | ctrHi
  | cursor
  | reserved (i : Fin 42)
deriving DecidableEq, Repr

/-- One operation of the host, or one event of the reset input, in the order in which they happen. -/
inductive HostOp where
  /-- A bus write to the register window at byte offset `off` (R111 to R115). -/
  | write (width : AccessWidth) (off : BitVec 8) (data : Word)
  /-- A bus read of the register window at byte offset `off` (R110, R115). -/
  | read (width : AccessWidth) (off : BitVec 8)
  /-- A bus write to a register at host address `addr`, which REG_BASE turns into an offset (R10, R59; log 12). -/
  | busWrite (width : AccessWidth) (addr : Nat) (data : Word)
  /-- A bus read of a register at host address `addr` (R10, R59; log 12). -/
  | busRead (width : AccessWidth) (addr : Nat)
  /-- The host writes `bytes` to data memory from host address `addr` up (R50, R117; log 12). -/
  | busMemWrite (addr : Nat) (bytes : List Byte)
  /-- The host reads `len` bytes of data memory from host address `addr` up (R50, R117; log 12). -/
  | busMemRead (addr : Nat) (len : Nat)
  /-- The host writes `bytes` to data memory from address `addr` up (R64 `mw`, R117). -/
  | memWrite (addr : Nat) (bytes : List Byte)
  /-- The host reads `len` bytes of data memory from address `addr` up (R64 `mr`, R117). -/
  | memRead (addr : Nat) (len : Nat)
  /-- The reset input is asserted between host operations (R140). DESIGN CHOICE (log 17): R64 and R66 list host
  operations alone. The model lists a reset event among them, as an entry of the script that counts for the position. -/
  | reset
  /-- The host writes `data` to CMD and the reset input is asserted while the command runs (R141). One entry of
  the script for both: DESIGN CHOICE (log 7). -/
  | resetDuring (data : Word)
deriving DecidableEq, Repr

/-- One line of a host script, its numerals still natural numbers (R64, R65) or a pseudo-operation (R67). -/
inductive ScriptLine where
  /-- `wr NAME, v`. -/
  | wr (name : Slot) (v : Nat)
  /-- `rd NAME`, or `rd NAME == v`, which states the value the rules give. -/
  | rd (name : Slot) (expect : Option Nat)
  /-- `mw a, b0 b1 ... bk`. -/
  | mw (addr : Nat) (bytes : List Nat)
  /-- `mr a, L`, or `mr a, L == b0 ...`. -/
  | mr (addr : Nat) (len : Nat) (expect : Option (List Nat))
  /-- `cmd MNEMONIC`. -/
  | cmd (mnemonic : Instr)
  /-- `init K, N, r`. -/
  | init (key nonce : List Nat) (rounds : Nat)
  /-- `seek b`. -/
  | seek (block : Nat)
  /-- `read d, L`. -/
  | read (dst len : Nat)
  /-- `xor s, d, L`. -/
  | xor (src dst len : Nat)
deriving DecidableEq, Repr

end Sys2Proof.Machine
end

