-- ==== Sys2Proof/Machine/State.lean ====
section
/-! DEFINITION. The state of CHACHA-CORE (R13), of its data memory (R40, R41) and of the host that drives it (R24,
R66), as plain data; the reasons a step can stop; the state after reset (R140). -/

namespace Sys2Proof.Machine

/-- The 16-word matrix `m`, and the work array `x` of the same shape (R14, R20). -/
abbrev Matrix := Vector Word 16

/-- The 64 bytes of a block (R8, R21). -/
abbrev BlockBytes := Vector Byte 64

/-- The ERR codes of R35. Code 7 is reserved and never written, so it has no constructor (log 14). -/
inductive ErrCode where
  /-- 0: the command was accepted and completed. -/
  | ok
  /-- 1: the value written to CMD is not 1, 2, 3 or 4. -/
  | illegalCmd
  /-- 2: SEEK, READ or XOR while `ready = 0`. -/
  | notInit
  /-- 3: INIT while ROUNDS is 0 or odd. -/
  | badRounds
  /-- 4: READ or XOR whose byte range does not fit in data memory. -/
  | range
  /-- 5: any CMD write while `abort = 1`. -/
  | halted
  /-- 6: XOR hit keystream exhaustion. -/
  | exhaustionAbort
deriving DecidableEq, Repr

/-- The argument registers (R28 to R32). -/
structure ArgRegs where
  /-- KEY0..KEY7 (R28). -/
  key : Vector Word 8
  /-- NONCE0 (R29). -/
  nonce0 : Word
  /-- NONCE1 (R29). -/
  nonce1 : Word
  /-- ROUNDS (R30). -/
  rounds : Word
  /-- SEEK_LO (R31). -/
  seekLo : Word
  /-- SEEK_HI (R31). -/
  seekHi : Word
  /-- SRC (R32). -/
  src : Word
  /-- DST (R32). -/
  dst : Word
  /-- LEN (R32). -/
  len : Word
deriving DecidableEq, Repr

/-- The engine's state (R13). The work array `x` is local to NEXT, as R20 allows (log 6); CMD has no storage (R33). -/
structure Engine where
  /-- The state matrix (R14). -/
  m : Matrix
  /-- The output buffer (R21). -/
  outbuf : BlockBytes
  /-- The number of bytes of `outbuf` consumed, 0..64 (R22; log 14). -/
  cursor : Fin 65
  /-- Rounds per block (R23). -/
  roundCount : Word
  /-- The block counter has wrapped (R25). -/
  exhausted : Bool
  /-- An INIT has succeeded since reset (R26). -/
  ready : Bool
  /-- The engine is halted (R27). -/
  abort : Bool
  /-- End-of-stream result of the last accepted command (R34). -/
  eos : Bool
  /-- Outcome of the last CMD write (R35). -/
  err : ErrCode
  /-- Bytes the last accepted command wrote (R36). -/
  count : Word
  /-- The argument registers (R28 to R32). -/
  args : ArgRegs
deriving DecidableEq, Repr

/-- Data memory: the bytes that have been written, by strictly rising address. An address that is not listed holds
no value (R41; log 4). -/
abbrev Memory := List Host.Cell

/-- What one of the host's reads returned (R110, R117). -/
inductive Reading where
  /-- The value of a register read. -/
  | register (v : Word)
  /-- The bytes of a data memory read, lowest address first. -/
  | memory (bytes : List Byte)
deriving DecidableEq, Repr

/-- The host agent: the operations it has still to perform, how many it has performed (the index of the next one,
R66), and what its reads returned, newest first (log 1). The reset events stand among the operations and count for the
position (log 17). -/
structure HostAgent where
  script : List HostOp
  position : Nat
  readings : List Reading
deriving DecidableEq, Repr

/-- The whole state. -/
structure State where
  /-- The engine (R13). -/
  eng : Engine
  /-- Data memory, shared by the engine and the host (R40). -/
  mem : Memory
  /-- The platform's parameters (R10); no step changes them. -/
  cfg : Config
  /-- The host agent (R66). -/
  host : HostAgent
  /-- The model's own counter of free bytes drawn so far (R41; log 4). -/
  draws : Nat
deriving DecidableEq, Repr

/-- Why the machine stops. -/
inductive Fault where
  /-- R115: a host access to the window that is not a 32-bit access at a multiple of 4. The engine ignores it and
  what the bus returns is open, "A model treats a bus error as a fault of the host". Raised by the host's register
  accesses, never by a command. Safe: the run ends where the hardware goes on (log 9). -/
  | busError
  /-- R126, D15: XOR ran out of keystream and the engine entered the halted state, "the halted state is a fault. It is
  never final and it refutes every claim whose run reaches it". Raised by the step in which XOR aborts; what XOR writes
  then is `execXor`'s next state. Safe (log 3). -/
  | exhaustionAbort
  /-- R10, R50: a host access at a host address that the platform gives neither to the window nor to data memory.
  Raised by the host's accesses by host address, never by a command. Safe (log 12). -/
  | unmappedAddress
  /-- R94, D43: NEXT returned ExhaustedKeystream inside SEEK. Raised by SEEK, unreachable by R94. Safe (log 15). -/
  | internalInvariant
  /-- R40: a data memory access of the host outside addresses 0..MEM_SIZE-1, which do not exist. Raised by the host's
  data memory accesses, never by a command (READ and XOR report RANGE, R124). Safe (log 8). -/
  | memoryOutOfRange
deriving DecidableEq, Repr

/-- Why the model has no meaning for an instruction. -/
inductive Refusal where
  /-- An arm of `exec` whose instruction has no meaning yet. Raised by no arm: all four commands have theirs. Safe. -/
  | notModelled (mnemonic : String)
deriving DecidableEq, Repr

/-- The argument registers after reset (R140: 0x00000000 each). -/
def ArgRegs.reset : ArgRegs :=
  { key := #v[0, 0, 0, 0, 0, 0, 0, 0], nonce0 := 0, nonce1 := 0, rounds := 0, seekLo := 0, seekHi := 0,
    src := 0, dst := 0, len := 0 }

/-- The engine after reset: the table of R140. -/
def Engine.reset : Engine :=
  { m := #v[0, 0, 0, 0, 0, 0, 0, 0, 0, 0, 0, 0, 0, 0, 0, 0]
    outbuf := Vector.replicate 64 0
    cursor := 64
    roundCount := 0
    exhausted := false
    ready := false
    abort := false
    eos := false
    err := .ok
    count := 0
    args := .reset }

/-- The machine right after power-on and reset: the engine as R140 says, no byte of data memory written (R41), the
platform's own memory size and addresses (log 5, log 12), and a host with nothing to do yet (log 1). -/
def State.reset : State :=
  { eng := .reset
    mem := []
    cfg := { memTop := Config.platformMemTop, regBase := Config.platformRegBase, memBase := Config.platformMemBase }
    host := { script := [], position := 0, readings := [] }
    draws := 0 }

end Sys2Proof.Machine
end

