-- ==== Sys2Proof/Machine/Flags.lean ====
section
/-! DEFINITION. The STATUS word and its fields (R34, R35), the counter and the flag its increment sets (R79). -/

namespace Sys2Proof.Machine

/-- The 3-bit ERR field (R35). -/
def ErrCode.bits : ErrCode → BitVec 3
  | .ok => 0#3
  | .illegalCmd => 1#3
  | .notInit => 2#3
  | .badRounds => 3#3
  | .range => 4#3
  | .halted => 5#3
  | .exhaustionAbort => 6#3

/-- STATUS: `zext_32(err ++ 0b0000 ++ abort ++ eos ++ exhausted ++ ready)` (R34). -/
def Engine.statusWord (e : Engine) : Word :=
  (e.err.bits ++ 0b0000#4 ++ BitVec.ofBool e.abort ++ BitVec.ofBool e.eos ++ BitVec.ofBool e.exhausted
    ++ BitVec.ofBool e.ready).setWidth 32

/-- CURSOR: `zext_32(cursor)` (R38). -/
def Engine.cursorWord (e : Engine) : Word := BitVec.ofNat 32 e.cursor.val

/-- The 64-bit block counter `m[13] ++ m[12]` (R17). -/
def Matrix.ctr (m : Matrix) : BitVec 64 := m[13] ++ m[12]

/-- The matrix with the counter set to `c`: `m[12] <- c[31:0]; m[13] <- c[63:32]` (R79, R94). -/
def Matrix.withCtr (m : Matrix) (c : BitVec 64) : Matrix :=
  (m.set 12 (c.extractLsb' 0 32)).set 13 (c.extractLsb' 32 32)

/-- The counter increment that leads to `c` wrapped from 2^64-1 to 0 (R79). -/
def ctrWrapped (c : BitVec 64) : Bool := c == 0

end Sys2Proof.Machine
end

