-- ==== Sys2Proof/Decode.lean ====
section
/-! DEFINITION. Decoding and encoding of command words (R56, R60, R61, R62), and the byte order that lays a word out
on the bus (R11, R42, R44). -/

namespace Sys2Proof

/-- `byte(w, k)` of R11: bits [8k+7:8k] of `w`, for k in 0..3. -/
def byteOf (w : Word) (k : Nat) : Byte := w.extractLsb' (8 * k) 8

/-- `le32(b0, b1, b2, b3)` of R11: the word `b3 ++ b2 ++ b1 ++ b0`. -/
def le32 (b0 b1 b2 b3 : Byte) : Word := b3 ++ b2 ++ b1 ++ b0

/-- The four byte lanes of a 32-bit access: lane k carries bits [8k+7:8k] (R44). -/
def lanesOf (w : Word) : List Byte := [byteOf w 0, byteOf w 1, byteOf w 2, byteOf w 3]

/-- Why a command is not decoded. -/
inductive DecodeReject where
  /-- ILLEGAL (R61, R62): the value is none of 1, 2, 3, 4. -/
  | illegalCmd (v : Word)
  /-- Not the four byte lanes of one 32-bit write, so not a command word (R63, R115). -/
  | notOneWord (lanes : Nat)
deriving DecidableEq, Repr

/-- The decoder of R61, total on every 32-bit value; all 32 bits are decoded. -/
def decode (v : Word) : Except DecodeReject Instr :=
  if v = 0x00000001#32 then .ok .init
  else if v = 0x00000002#32 then .ok .seek
  else if v = 0x00000003#32 then .ok .read
  else if v = 0x00000004#32 then .ok .xor
  else .error (.illegalCmd v)

/-- The decoder on the byte lanes of a bus write, total on any list of bytes (R44, R63). -/
def decodeLanes : List Byte → Except DecodeReject Instr
  | [b0, b1, b2, b3] => decode (le32 b0 b1 b2 b3)
  | lanes => .error (.notOneWord lanes.length)

/-- The command word of an instruction (R60). -/
def encode : Instr → Word
  | .init => 0x00000001#32
  | .seek => 0x00000002#32
  | .read => 0x00000003#32
  | .xor => 0x00000004#32

/-- The byte lanes of an instruction's command word (R44). -/
def encodeLanes (i : Instr) : List Byte := lanesOf (encode i)

/-- The command word whose bits spec/opcode_table.json numbers as `w`, `nbits` of them given. Every command is one
32-bit word (R63), so the bits above `nbits` are 0 and there are none above 32. -/
def tableWord (nbits w : Nat) : Word := BitVec.ofNat 32 (w % 2 ^ nbits)

/-- The instruction the decoder reads from the table's word, laid out on the bus's byte lanes (R44). -/
def decodeTableWord (nbits w : Nat) : Option Instr := (decodeLanes (lanesOf (tableWord nbits w))).toOption

end Sys2Proof
end

