-- ==== Sys2Proof/Machine/Operands.lean ====
section
/-! DEFINITION. The operands of the four commands (R57), the packing of source inputs into argument registers (R58,
R16, R18), and the registers' names and offsets (R59). -/

namespace Sys2Proof.Machine

/-- The matrix INIT builds: the constants of R15, the key words (R16), counter 0 and the nonce words (R18). -/
def ArgRegs.initMatrix (a : ArgRegs) : Matrix :=
  #v[0x61707865, 0x3320646E, 0x79622D32, 0x6B206574,
     a.key[0], a.key[1], a.key[2], a.key[3], a.key[4], a.key[5], a.key[6], a.key[7],
     0, 0, a.nonce0, a.nonce1]

/-- The block index of SEEK, `reg[SEEK_HI] ++ reg[SEEK_LO]` (R31, R57). -/
def ArgRegs.seekIndex (a : ArgRegs) : BitVec 64 := a.seekHi ++ a.seekLo

/-- KEYi from a key byte string: `le32(k[4i], k[4i+1], k[4i+2], k[4i+3])` (R16, R58). -/
def keyWord (k : Vector Byte 32) (i : Fin 8) : Word :=
  le32 k[4 * i.val] k[4 * i.val + 1] k[4 * i.val + 2] k[4 * i.val + 3]

/-- NONCE0 and NONCE1 from a nonce byte string (R18, R58). -/
def nonceWord (n : Vector Byte 8) (i : Fin 2) : Word :=
  le32 n[4 * i.val] n[4 * i.val + 1] n[4 * i.val + 2] n[4 * i.val + 3]

/-- The byte offset of a slot in the register window (R59). -/
def Slot.offset : Slot → BitVec 8
  | .key i => BitVec.ofNat 8 (4 * i.val)
  | .nonce0 => 0x20#8
  | .nonce1 => 0x24#8
  | .rounds => 0x28#8
  | .seekLo => 0x2C#8
  | .seekHi => 0x30#8
  | .src => 0x34#8
  | .dst => 0x38#8
  | .len => 0x3C#8
  | .cmd => 0x40#8
  | .status => 0x44#8
  | .count => 0x48#8
  | .ctrLo => 0x4C#8
  | .ctrHi => 0x50#8
  | .cursor => 0x54#8
  | .reserved i => BitVec.ofNat 8 (0x58 + 4 * i.val)

/-- The slot of the `w`-th word of the window, `w` = 0..63 (R59). -/
def Slot.ofIndex (w : Fin 64) : Slot :=
  if h : w.val < 8 then .key ⟨w.val, h⟩
  else if w.val = 8 then .nonce0
  else if w.val = 9 then .nonce1
  else if w.val = 10 then .rounds
  else if w.val = 11 then .seekLo
  else if w.val = 12 then .seekHi
  else if w.val = 13 then .src
  else if w.val = 14 then .dst
  else if w.val = 15 then .len
  else if w.val = 16 then .cmd
  else if w.val = 17 then .status
  else if w.val = 18 then .count
  else if w.val = 19 then .ctrLo
  else if w.val = 20 then .ctrHi
  else if w.val = 21 then .cursor
  else .reserved ⟨w.val - 22, by omega⟩

/-- The slot at a byte offset: none where the offset is not a multiple of 4 (R115). -/
def Slot.ofOffset (off : BitVec 8) : Option Slot :=
  if off.toNat % 4 = 0 then some (.ofIndex ⟨off.toNat / 4, by omega⟩) else none

/-- The slot a host access reaches; none is a bus error (R115): another width than 32 bits, or not aligned. -/
def accessSlot (width : AccessWidth) (off : BitVec 8) : Option Slot :=
  match width with
  | .byte => none
  | .half => none
  | .word => Slot.ofOffset off
  | .wide => none

/-- The offset in the 256-byte window of a host address (R10, R59); none outside the window. -/
def Config.windowOffset (c : Config) (addr : Nat) : Option (BitVec 8) :=
  if c.regBase ≤ addr ∧ addr < c.regBase + 256 then some (BitVec.ofNat 8 (addr - c.regBase)) else none

/-- An access by host address as the access by offset or by data memory address that it is (R50; log 12). An address
below data memory or outside the window stays as it is: nothing of CHACHA-CORE is there. -/
def HostOp.resolve (c : Config) (op : HostOp) : HostOp :=
  match op with
  | .busWrite width addr data =>
    match Config.windowOffset c addr with
    | some off => .write width off data
    | none => op
  | .busRead width addr =>
    match Config.windowOffset c addr with
    | some off => .read width off
    | none => op
  | .busMemWrite addr bytes => if c.memBase ≤ addr then .memWrite (addr - c.memBase) bytes else op
  | .busMemRead addr len => if c.memBase ≤ addr then .memRead (addr - c.memBase) len else op
  | .write .. | .read .. | .memWrite .. | .memRead .. | .reset | .resetDuring _ => op

end Sys2Proof.Machine
end

