-- ==== Sys2Proof/Machine/Ops.lean ====
section
/-! DEFINITION. The shared operations: data memory (R40 to R51, R141), the acceptance check of a command (R90, R129),
rejecting a command (R121), completing one, the exhaustion abort (R126) and reset, the only way out of it (R127, R140). -/

namespace Sys2Proof.Machine

/-! ### Data memory -/

/-- The form every memory has: addresses strictly rising. An address that is not listed holds no value, so no entry
can repeat what an unlisted address reads as (log 4). -/
def Memory.wf : Memory → Bool
  | [] => true
  | [_] => true
  | c :: d :: rest => decide (c.1 < d.1) && Memory.wf (d :: rest)

/-- The byte last written at `a`; none if the byte holds no value (R41). -/
def Memory.lookup : Memory → Nat → Option Byte
  | [], _ => none
  | (b, w) :: rest, a => if a = b then some w else Memory.lookup rest a

/-- `MemWrite(a, 1, v)` (R41, R45). -/
def Memory.store : Memory → Nat → Byte → Memory
  | [], a, v => [(a, v)]
  | (b, w) :: rest, a, v =>
    if a < b then (a, v) :: (b, w) :: rest
    else if a = b then (a, v) :: rest
    else (b, w) :: Memory.store rest a v

/-- The bytes `a`..`a + n - 1` lose their values: they hold unspecified ones (R141; log 7). -/
def Memory.forget (mem : Memory) (a n : Nat) : Memory :=
  mem.filter fun c => !(decide (a ≤ c.1) && decide (c.1 < a + n))

/-- `InRange(a, L)` of R47: L = 0, or a + L ≤ MEM_SIZE in unbounded integers. -/
def Config.inRange (c : Config) (a n : Nat) : Bool := n == 0 || decide (a + n ≤ c.memSize)

/-- `MemRead(a, 1)`: the byte last written, or a free byte where none was (R41; log 4). -/
def State.memRead (s : State) (a : Nat) : Byte × State :=
  match Memory.lookup s.mem a with
  | some v => (v, s)
  | none => (Config.freeByte s.draws, { s with draws := s.draws + 1 })

/-- `MemWrite(a, 1, v)`. -/
def State.memWrite (s : State) (a : Nat) (v : Byte) : State := { s with mem := Memory.store s.mem a v }

/-- The host's read of `n` bytes from `a` up (R64 `mr`, R117). -/
def State.memReadBytes : Nat → Nat → State → List Byte × State
  | 0, _, s => ([], s)
  | n + 1, a, s =>
    let r := s.memRead a
    let rest := State.memReadBytes n (a + 1) r.2
    (r.1 :: rest.1, rest.2)

/-- The host's write of `bytes` from `a` up (R64 `mw`, R117). -/
def State.memWriteBytes : List Byte → Nat → State → State
  | [], _, s => s
  | b :: bs, a, s => State.memWriteBytes bs (a + 1) (s.memWrite a b)

/-! ### Accepting, rejecting and completing a command -/

/-- INIT rejects ROUNDS = 0 and every odd value (R90, R128). -/
def badRounds (rounds : Word) : Bool := rounds == 0 || rounds.getLsbD 0

/-- READ's range check (R47, R90). -/
def State.dstInRange (s : State) : Bool := Config.inRange s.cfg s.eng.args.dst.toNat s.eng.args.len.toNat

/-- The SRC half of XOR's range check (R47, R90). -/
def State.srcInRange (s : State) : Bool := Config.inRange s.cfg s.eng.args.src.toNat s.eng.args.len.toNat

/-- The checks of R90 on a decoded command, in their order (R129); none when the command is accepted. -/
def cmdCheck (i : Instr) (s : State) : Option ErrCode :=
  if s.eng.abort then some .halted
  else if i != .init && !s.eng.ready then some .notInit
  else if i == .init && badRounds s.eng.args.rounds then some .badRounds
  else if i == .read && !s.dstInRange then some .range
  else if i == .xor && !(s.srcInRange && s.dstInRange) then some .range
  else none

/-- The code that rejects a CMD value that is no command: HALTED comes first (R90, R103, R129). -/
def illegalCode (s : State) : ErrCode := if s.eng.abort then .halted else .illegalCmd

/-- A rejected command writes only `err` (R90, R121). -/
def State.reject (s : State) (code : ErrCode) : State := { s with eng := { s.eng with err := code } }

/-- The end of an accepted command that was not aborted: `count`, `eos` and `err <- OK` (R91, R94, R97, R100). -/
def State.complete (s : State) (count : Nat) (eos : Bool) : State :=
  { s with eng := { s.eng with count := BitVec.ofNat 32 count, eos := eos, err := .ok } }

/-! ### The exhaustion abort, and reset -/

/-- ExhaustionAbort(i), the trap entry of R126: `count <- i; eos <- 0; abort <- 1; err <- EXHAUSTION_ABORT`, and
nothing else. A next state, not a model fault (log 3). -/
def State.exhaustionAbort (s : State) (i : Nat) : State :=
  { s with
    eng := { s.eng with count := BitVec.ofNat 32 i, eos := false, abort := true, err := .exhaustionAbort } }

/-- Reset: every piece of engine state at its reset value; data memory is not touched (R140, R41). It is the only
exit of the halted state (R127). -/
def State.engineReset (s : State) : State := { s with eng := .reset }

/-- The instruction writes data memory while it runs, so that a reset can cut it short (R141). -/
def writesMemory : Instr → Bool
  | .init => false
  | .seek => false
  | .read => true
  | .xor => true

/-- Reset while the command of CMD value `v` runs (R141): the bytes an accepted READ or XOR would have written,
DST..DST+LEN-1, hold unspecified values (log 7), and the engine is reset. -/
def State.resetDuring (s : State) (v : Word) : State :=
  match decode v with
  | .ok i =>
    if (cmdCheck i s).isNone && writesMemory i then
      State.engineReset { s with mem := Memory.forget s.mem s.eng.args.dst.toNat s.eng.args.len.toNat }
    else s.engineReset
  | .error _ => s.engineReset

end Sys2Proof.Machine
end

