-- ==== Sys2Proof/Machine/Block.lean ====
section
/-! DEFINITION. The block function (40_block_function.md): quarter-round network, add-back, serialisation, counter,
NEXT, and the consumption of keystream bytes. -/

namespace Sys2Proof.Machine

/-- `rotl32(v, n)` of R11, for 0 < n < 32. -/
def rotl32 (v : Word) (n : Nat) : Word := (v <<< n) ||| (v >>> (32 - n))

/-- The four steps of the quarter-round on the words at its four indices, each reading what the steps before it
wrote (R71). -/
def quarterRoundWords (a b c d : Word) : Word × Word × Word × Word :=
  let a := a + b
  let d := rotl32 (d ^^^ a) 16
  let c := c + d
  let b := rotl32 (b ^^^ c) 12
  let a := a + b
  let d := rotl32 (d ^^^ a) 8
  let c := c + d
  let b := rotl32 (b ^^^ c) 7
  (a, b, c, d)

/-- QR(a, b, c, d) on four distinct indices of the work array (R71). -/
def quarterRound (a b c d : Fin 16) (x : Matrix) : Matrix :=
  let q := quarterRoundWords x[a] x[b] x[c] x[d]
  (((x.set a q.1).set b q.2.1).set c q.2.2.1).set d q.2.2.2

/-- COLUMNROUND: QR(0,4,8,12); QR(1,5,9,13); QR(2,6,10,14); QR(3,7,11,15) (R72). -/
def columnRound (x : Matrix) : Matrix :=
  quarterRound 3 7 11 15 (quarterRound 2 6 10 14 (quarterRound 1 5 9 13 (quarterRound 0 4 8 12 x)))

/-- DIAGONALROUND: QR(0,5,10,15); QR(1,6,11,12); QR(2,7,8,13); QR(3,4,9,14) (R73). -/
def diagonalRound (x : Matrix) : Matrix :=
  quarterRound 3 4 9 14 (quarterRound 2 7 8 13 (quarterRound 1 6 11 12 (quarterRound 0 5 10 15 x)))

/-- DOUBLEROUND: the column pass, then the diagonal pass (R74). -/
def doubleRound (x : Matrix) : Matrix := diagonalRound (columnRound x)

/-- `n` DOUBLEROUNDs. -/
def doubleRounds : Nat → Matrix → Matrix
  | 0, x => x
  | n + 1, x => doubleRounds n (doubleRound x)

/-- PERMUTE: copy the matrix and run roundCount div 2 DOUBLEROUNDs (R75). -/
def permute (m : Matrix) (roundCount : Word) : Matrix := doubleRounds (roundCount.toNat / 2) m

/-- ADDBACK: add the matrix to the work array, word by word (R76). -/
def addBack (x m : Matrix) : Matrix := Vector.zipWith (· + ·) x m

/-- `block(m, roundCount)`, the block value (R77). -/
def block (m : Matrix) (roundCount : Word) : Matrix := addBack (permute m roundCount) m

/-- The bytes SERIALISE writes: `outbuf[4*i + k] <- byte(y[i], k)` (R78). -/
def serialise (y : Matrix) : BlockBytes :=
  Vector.ofFn fun j : Fin 64 => byteOf (y[j.val / 4]'(by omega)) (j.val % 4)

/-- CTRINC: the counter advances by 1 modulo 2^64; `exhausted <- 1` if it wrapped (R79). -/
def Engine.ctrInc (e : Engine) : Engine :=
  let c := Matrix.ctr e.m + 1
  { e with m := Matrix.withCtr e.m c, exhausted := ctrWrapped c || e.exhausted }

/-- NEXT (R80): none is ExhaustedKeystream, and nothing is changed; otherwise PERMUTE, ADDBACK, SERIALISE, CTRINC. -/
def Engine.next (e : Engine) : Option Engine :=
  if e.exhausted then none
  else some (Engine.ctrInc { e with outbuf := serialise (block e.m e.roundCount), cursor := 0 })

/-- KSBYTE (R81): none is ExhaustedKeystream, and nothing is changed. With an empty buffer NEXT runs first, and the
byte served is byte 0 of the new block. -/
def Engine.ksByte (e : Engine) : Option (Byte × Engine) :=
  if h : e.cursor.val < 64 then
    some (e.outbuf[e.cursor.val], { e with cursor := ⟨e.cursor.val + 1, by omega⟩ })
  else
    match e.next with
    | none => none
    | some e' => some (e'.outbuf[0], { e' with cursor := 1 })

end Sys2Proof.Machine
end

