-- ==== Sys2Proof/Machine/Commands.lean ====
section
/-! DEFINITION. The four commands (41_commands.md): INIT, SEEK, READ, XOR. Each meaning is the checks of R90 and then
the command's own rule. -/

namespace Sys2Proof.Machine

/-- What INIT does once accepted (R91). -/
def State.runInit (s : State) : State :=
  State.complete
    { s with
      eng := { s.eng with
        m := s.eng.args.initMatrix
        roundCount := s.eng.args.rounds
        outbuf := Vector.replicate 64 0
        cursor := 64
        exhausted := false
        ready := true } } 0 false

/-- The engine of SEEK before it runs NEXT: the counter set, `exhausted` cleared (R94). -/
def Engine.seekTo (e : Engine) (n : BitVec 64) : Engine :=
  { e with m := Matrix.withCtr e.m n, exhausted := false }

/-- The loop of READ (R97): `n` bytes still wanted, the next one goes to `a`, `i` are written. It gives the state,
the number of bytes written, and whether the keystream was exhausted first. -/
def readLoop : (n a i : Nat) → State → State × Nat × Bool
  | 0, _, i, s => (s, i, false)
  | n + 1, a, i, s =>
    match s.eng.ksByte with
    | none => (s, i, true)
    | some (r, e) => readLoop n (a + 1) (i + 1) (State.memWrite { s with eng := e } a r)

/-- The loop of XOR (R100): as READ's, the byte at `p` read before the byte at `a` is written (R51). -/
def xorLoop : (n p a i : Nat) → State → State × Nat × Bool
  | 0, _, _, i, s => (s, i, false)
  | n + 1, p, a, i, s =>
    match s.eng.ksByte with
    | none => (s, i, true)
    | some (r, e) =>
      let b := State.memRead { s with eng := e } p
      xorLoop n (p + 1) (a + 1) (i + 1) (b.2.memWrite a (b.1 ^^^ r))

/-- INIT (R91). -/
def execInit (s : State) : Host.Outcome State Fault Refusal :=
  match cmdCheck .init s with
  | some code => .next (s.reject code)
  | none => .next s.runInit

/-- SEEK (R94). NEXT cannot fail here; were it to, the model faults (D43; log 15). -/
def execSeek (s : State) : Host.Outcome State Fault Refusal :=
  match cmdCheck .seek s with
  | some code => .next (s.reject code)
  | none =>
    match Engine.next (s.eng.seekTo s.eng.args.seekIndex) with
    | none => .fault .internalInvariant
    | some e => .next (State.complete { s with eng := e } 0 false)

/-- READ (R97): exhaustion ends it with a short count and `eos`, `err` OK (R125). -/
def execRead (s : State) : Host.Outcome State Fault Refusal :=
  match cmdCheck .read s with
  | some code => .next (s.reject code)
  | none =>
    let r := readLoop s.eng.args.len.toNat s.eng.args.dst.toNat 0 s
    .next (r.1.complete r.2.1 r.2.2)

/-- XOR (R100): exhaustion is ExhaustionAbort (R126). -/
def execXor (s : State) : Host.Outcome State Fault Refusal :=
  match cmdCheck .xor s with
  | some code => .next (s.reject code)
  | none =>
    let r := xorLoop s.eng.args.len.toNat s.eng.args.src.toNat s.eng.args.dst.toNat 0 s
    if r.2.2 then .next (r.1.exhaustionAbort r.2.1) else .next (r.1.complete r.2.1 false)

end Sys2Proof.Machine
end

