-- ==== Sys2Proof/Machine/Dispatch.lean ====
section
/-! DEFINITION. The meaning of every command (R60). -/

namespace Sys2Proof.Machine

def exec (i : Instr) (s : State) : Host.Outcome State Fault Refusal :=
  match i with
  | .init => Sys2Proof.Machine.execInit s
  | .seek => Sys2Proof.Machine.execSeek s
  | .read => Sys2Proof.Machine.execRead s
  | .xor => Sys2Proof.Machine.execXor s

end Sys2Proof.Machine
end

