-- ==== Sys2Proof/Machine/Window.lean ====
section
/-! DEFINITION. The host's accesses (42_register_access.md): CMDWRITE (R90), register reads and writes (R110 to R115),
data memory accesses (R117), reset (R140, R141), and how the next host operation is taken from the script (R66). -/

namespace Sys2Proof.Machine

/-- CMDWRITE(v) (R90, R114): the decoded command runs; a value that is no command is rejected (R103). -/
def cmdWrite (v : Word) (s : State) : Host.Outcome State Fault Refusal :=
  match decode v with
  | .ok i => exec i s
  | .error _ => .next (s.reject (illegalCode s))

/-- The value a register read returns (R110, R112, R113). -/
def Engine.readSlot (e : Engine) : Slot → Word
  | .key _ => 0
  | .nonce0 => e.args.nonce0
  | .nonce1 => e.args.nonce1
  | .rounds => e.args.rounds
  | .seekLo => e.args.seekLo
  | .seekHi => e.args.seekHi
  | .src => e.args.src
  | .dst => e.args.dst
  | .len => e.args.len
  | .cmd => 0
  | .status => e.statusWord
  | .count => e.count
  | .ctrLo => e.m[12]
  | .ctrHi => e.m[13]
  | .cursor => e.cursorWord
  | .reserved _ => 0

/-- The argument registers after a write of `v` to a slot (R111); a write to a read-only register, to a reserved
slot, or to CMD stores nothing in them (R33, R112, R113). -/
def ArgRegs.write (a : ArgRegs) (r : Slot) (v : Word) : ArgRegs :=
  match r with
  | .key i => { a with key := a.key.set i v }
  | .nonce0 => { a with nonce0 := v }
  | .nonce1 => { a with nonce1 := v }
  | .rounds => { a with rounds := v }
  | .seekLo => { a with seekLo := v }
  | .seekHi => { a with seekHi := v }
  | .src => { a with src := v }
  | .dst => { a with dst := v }
  | .len => { a with len := v }
  | .cmd | .status | .count | .ctrLo | .ctrHi | .cursor | .reserved _ => a

/-- A register write (R111 to R114): a write to CMD runs the command, any other one ends in the argument registers or
nowhere. -/
def writeSlot (r : Slot) (v : Word) (s : State) : Host.Outcome State Fault Refusal :=
  match r with
  | .cmd => cmdWrite v s
  | .key _ | .nonce0 | .nonce1 | .rounds | .seekLo | .seekHi | .src | .dst | .len
  | .status | .count | .ctrLo | .ctrHi | .cursor | .reserved _ =>
    .next { s with eng := { s.eng with args := s.eng.args.write r v } }

/-- The host notes what a read returned (R64; log 1). -/
def State.observe (s : State) (r : Reading) : State :=
  { s with host := { s.host with readings := r :: s.host.readings } }

/-- One operation of the host, resolved: an address that no part of CHACHA-CORE has is left and faults (log 12). -/
def runHostOp (op : HostOp) (s : State) : Host.Outcome State Fault Refusal :=
  match op with
  | .write width off data =>
    match accessSlot width off with
    | some r => writeSlot r data s
    | none => .fault .busError
  | .read width off =>
    match accessSlot width off with
    | some r => .next (s.observe (.register (s.eng.readSlot r)))
    | none => .fault .busError
  | .memWrite a bytes =>
    if Config.inRange s.cfg a bytes.length then .next (State.memWriteBytes bytes a s)
    else .fault .memoryOutOfRange
  | .memRead a n =>
    if Config.inRange s.cfg a n then
      let r := State.memReadBytes n a s
      .next (r.2.observe (.memory r.1))
    else .fault .memoryOutOfRange
  | .busWrite .. | .busRead .. | .busMemWrite .. | .busMemRead .. => .fault .unmappedAddress
  | .reset => .next s.engineReset
  | .resetDuring data => .next (s.resetDuring data)

/-- The state in which an operation of the host runs: that operation taken off the script, the position advanced
(R66). DESIGN CHOICE (log 17): a reset event is taken off the script and advances the position by 1 too. -/
def State.advance (s : State) : State :=
  { s with host := { s.host with script := s.host.script.tail, position := s.host.position + 1 } }

/-- The host's next operation, resolved, with the state it runs in; none at the end of the script (R66). -/
def State.fetch (s : State) : Option (HostOp × State) :=
  match s.host.script with
  | [] => none
  | op :: _ => some (op.resolve s.cfg, s.advance)

/-- Entering the halted state is a fault of the run (R126, D15; log 3). `before` is the engine the operation found; an
engine that is halted already goes on as R127 says. -/
def faultOnHalt (before : Engine) (o : Host.Outcome State Fault Refusal) : Host.Outcome State Fault Refusal :=
  match o with
  | .next t => if !before.abort && t.eng.abort then .fault .exhaustionAbort else .next t
  | .fault r => .fault r
  | .refused r => .refused r

/-- The host operation that writes the command word of an opcode-table row to CMD (R64 `cmd`). -/
def tableOp (nbits w : Nat) : HostOp := .write .word Slot.cmd.offset (tableWord nbits w)

end Sys2Proof.Machine
end

