-- ==== Sys2Proof/Machine/Step.lean ====
section
/-! DEFINITION. One step: the host's next operation runs to completion (R66, R114). -/

namespace Sys2Proof.Machine

/-- One step of host and engine. At the end of the script nothing happens: the engine is idle and "nothing wakes it
but a CMD write" (R137; log 2). A step that halts the engine faults (R126; log 3). -/
def step (s : State) : Host.Outcome State Fault Refusal :=
  match s.fetch with
  | none => .next s
  | some (op, s') => faultOnHalt s.eng (runHostOp op s')

/-- The state whose next step writes the table's word to CMD (log 1). -/
def State.withFetchWord (s : State) (nbits w : Nat) : State :=
  { s with host := { s.host with script := tableOp nbits w :: s.host.script } }

end Sys2Proof.Machine
end

