-- ==== Sys2Proof/WellFormed.lean ====
section
/-! DEFINITION. Well-formed terms. A command word has no operand field (R56, R57), so every `Instr` is well formed;
the checks are those of R64, R65 and R67 on the lines of a host script. -/

namespace Sys2Proof

/-- A command has no operand fields that could be out of range (R56): all four are well formed. -/
def Instr.wellFormed : Instr → Bool
  | .init => true
  | .seek => true
  | .read => true
  | .xor => true

namespace Machine

/-- A numeral that fits a 32-bit register or address (R64: "A `wr` of a value that needs more than 32 bits is
ill-formed"). -/
def fitsWord (v : Nat) : Bool := decide (v < 2 ^ 32)

/-- A numeral that is a byte (R64). -/
def fitsByte (v : Nat) : Bool := decide (v < 2 ^ 8)

/-- A slot that has a name in R59; the reserved offsets have none, so no script line can name one (R64). -/
def Slot.isNamed : Slot → Bool
  | .reserved _ => false
  | .key _ | .nonce0 | .nonce1 | .rounds | .seekLo | .seekHi | .src | .dst | .len
  | .cmd | .status | .count | .ctrLo | .ctrHi | .cursor => true

/-- The checks of R64, R65 and R67 on one line: register names of R59, 32-bit numerals, bytes, at least one byte in
`mw`, as many expected bytes as `mr` reads, a 32-byte key and an 8-byte nonce, a 64-bit block index. -/
def ScriptLine.wellFormed : ScriptLine → Bool
  | .wr name v => name.isNamed && fitsWord v
  | .rd name expect => name.isNamed && expect.all fitsWord
  | .mw addr bytes => fitsWord addr && !bytes.isEmpty && bytes.all fitsByte
  | .mr addr len expect =>
    fitsWord addr && fitsWord len && expect.all (fun bs => bs.all fitsByte && bs.length == len)
  | .cmd mnemonic => mnemonic.wellFormed
  | .init key nonce rounds =>
    key.length == 32 && key.all fitsByte && nonce.length == 8 && nonce.all fitsByte && fitsWord rounds
  | .seek block => decide (block < 2 ^ 64)
  | .read dst len => fitsWord dst && fitsWord len
  | .xor src dst len => fitsWord src && fitsWord dst && fitsWord len

end Machine

end Sys2Proof
end

