-- ==== Sys2Proof/Machine/Script.lean ====
section
/-! DEFINITION. Host scripts as they are written down (30_encoding.md section 4): the bus operations a line stands for
(R64, R65, R67, R68), and a reader of the text (R64; the layout conventions R64 leaves open are log 13). A script has
no meaning beyond the accesses it expands to (D37). -/

namespace Sys2Proof.Machine

/-! ### Expansion -/

/-- `wr NAME, v` as a bus write (R64, R68). -/
def writeOp (name : Slot) (v : Word) : HostOp := .write .word name.offset v

/-- `cmd MNEMONIC` is a write of its opcode to CMD (R64, R65). -/
def cmdOp (i : Instr) : HostOp := writeOp .cmd (encode i)

/-- The `n` bytes of a list of numerals. -/
def byteVector (n : Nat) (bs : List Nat) : Vector Byte n := Vector.ofFn fun j => BitVec.ofNat 8 (bs.getD j.val 0)

/-- `init K, N, r` (R67). -/
def initOps (key : Vector Byte 32) (nonce : Vector Byte 8) (rounds : Word) : List HostOp :=
  (List.finRange 8).map (fun i => writeOp (.key i) (keyWord key i)) ++
    [writeOp .nonce0 (nonceWord nonce 0), writeOp .nonce1 (nonceWord nonce 1), writeOp .rounds rounds, cmdOp .init]

/-- `seek b` (R67): the halves of R58. -/
def seekOps (b : BitVec 64) : List HostOp :=
  [writeOp .seekLo (b.extractLsb' 0 32), writeOp .seekHi (b.extractLsb' 32 32), cmdOp .seek]

/-- `read d, L` (R67). -/
def readOps (d len : Word) : List HostOp := [writeOp .dst d, writeOp .len len, cmdOp .read]

/-- `xor s, d, L` (R67). -/
def xorOps (s d len : Word) : List HostOp := [writeOp .src s, writeOp .dst d, writeOp .len len, cmdOp .xor]

/-- The operations a line stands for (R64, R67). -/
def ScriptLine.expand : ScriptLine → List HostOp
  | .wr name v => [writeOp name (BitVec.ofNat 32 v)]
  | .rd name _ => [.read .word name.offset]
  | .mw addr bytes => [.memWrite addr (bytes.map (BitVec.ofNat 8))]
  | .mr addr len _ => [.memRead addr len]
  | .cmd i => [cmdOp i]
  | .init key nonce rounds => initOps (byteVector 32 key) (byteVector 8 nonce) (BitVec.ofNat 32 rounds)
  | .seek b => seekOps (BitVec.ofNat 64 b)
  | .read d len => readOps (BitVec.ofNat 32 d) (BitVec.ofNat 32 len)
  | .xor s d len => xorOps (BitVec.ofNat 32 s) (BitVec.ofNat 32 d) (BitVec.ofNat 32 len)

/-- An ill-formed line is refused (R64, R65). -/
def ScriptLine.ops (l : ScriptLine) : Option (List HostOp) := if l.wellFormed then some l.expand else none

/-! ### The text -/

/-- A digit of a numeral. -/
def digitVal (c : Char) : Option Nat :=
  let n := c.toNat
  if 48 ≤ n && n ≤ 57 then some (n - 48)
  else if 97 ≤ n && n ≤ 102 then some (n - 87)
  else if 65 ≤ n && n ≤ 70 then some (n - 55)
  else none

/-- Digits in a base, after those worth `acc`. -/
def digitsVal (base : Nat) : List Char → Nat → Option Nat
  | [], acc => some acc
  | c :: cs, acc =>
    match digitVal c with
    | some d => if d < base then digitsVal base cs (acc * base + d) else none
    | none => none

/-- A numeral: "hexadecimal with `0x` or decimal" (R64). -/
def numeral : List Char → Option Nat
  | [] => none
  | '0' :: 'x' :: c :: cs => digitsVal 16 (c :: cs) 0
  | c :: cs => digitsVal 10 (c :: cs) 0

/-- A byte of `mw` or `mr`: two hexadecimal digits. -/
def byteToken : List Char → Option Nat
  | [a, b] => digitsVal 16 [a, b] 0
  | _ => none

/-- A capital letter of a register name or mnemonic as a small one: names are case-insensitive (R64). -/
def lowerChar (c : Char) : Char := if 65 ≤ c.toNat && c.toNat ≤ 90 then Char.ofNat (c.toNat + 32) else c

/-- The register of a name of R59. -/
def slotOfName (name : List Char) : Option Slot :=
  match name.map lowerChar with
  | ['k', 'e', 'y', d] => do
    let i ← digitVal d
    if h : i < 8 then some (.key ⟨i, h⟩) else none
  | ['n', 'o', 'n', 'c', 'e', '0'] => some .nonce0
  | ['n', 'o', 'n', 'c', 'e', '1'] => some .nonce1
  | ['r', 'o', 'u', 'n', 'd', 's'] => some .rounds
  | ['s', 'e', 'e', 'k', '_', 'l', 'o'] => some .seekLo
  | ['s', 'e', 'e', 'k', '_', 'h', 'i'] => some .seekHi
  | ['s', 'r', 'c'] => some .src
  | ['d', 's', 't'] => some .dst
  | ['l', 'e', 'n'] => some .len
  | ['c', 'm', 'd'] => some .cmd
  | ['s', 't', 'a', 't', 'u', 's'] => some .status
  | ['c', 'o', 'u', 'n', 't'] => some .count
  | ['c', 't', 'r', '_', 'l', 'o'] => some .ctrLo
  | ['c', 't', 'r', '_', 'h', 'i'] => some .ctrHi
  | ['c', 'u', 'r', 's', 'o', 'r'] => some .cursor
  | _ => none

/-- The command of a mnemonic: "the only command spellings" (R65). -/
def instrOfName : List Char → Option Instr
  | ['I', 'N', 'I', 'T'] => some .init
  | ['S', 'E', 'E', 'K'] => some .seek
  | ['R', 'E', 'A', 'D'] => some .read
  | ['X', 'O', 'R'] => some .xor
  | _ => none

/-- The words of a line, a comma a word of its own, up to a `;` comment (R64). `acc` is the word being read,
last character first. -/
def lineTokens : List Char → List Char → List (List Char)
  | [], acc => if acc.isEmpty then [] else [acc.reverse]
  | c :: cs, acc =>
    let before := if acc.isEmpty then [] else [acc.reverse]
    if c = ';' then before
    else if c = ' ' || c = '\t' || c = '\r' then before ++ lineTokens cs []
    else if c = ',' then before ++ [[',']] ++ lineTokens cs []
    else lineTokens cs (c :: acc)

/-- The words before the first `sep`, and those after it where it occurs. -/
def splitAtToken (sep : List Char) : List (List Char) → List (List Char) × Option (List (List Char))
  | [] => ([], none)
  | t :: ts =>
    if t = sep then ([], some ts)
    else
      let r := splitAtToken sep ts
      (t :: r.1, r.2)

/-- `init K, N, r` with K and N as bytes like those of `mw` (log 13). -/
def initLine (args : List (List Char)) : Option ScriptLine := do
  let (key, rest) := splitAtToken [','] args
  let (nonce, rest) := splitAtToken [','] (← rest)
  match ← rest with
  | [r] => some (.init (← key.mapM byteToken) (← nonce.mapM byteToken) (← numeral r))
  | _ => none

/-- One line's words (R64, R65, R67). -/
def lineOfTokens : List (List Char) → Option ScriptLine
  | [['w', 'r'], name, [','], v] => do some (.wr (← slotOfName name) (← numeral v))
  | [['r', 'd'], name] => do some (.rd (← slotOfName name) none)
  | [['r', 'd'], name, ['=', '='], v] => do some (.rd (← slotOfName name) (some (← numeral v)))
  | ['m', 'w'] :: a :: [','] :: bytes => do some (.mw (← numeral a) (← bytes.mapM byteToken))
  | [['m', 'r'], a, [','], n] => do some (.mr (← numeral a) (← numeral n) none)
  | ['m', 'r'] :: a :: [','] :: n :: ['=', '='] :: bytes => do
    some (.mr (← numeral a) (← numeral n) (some (← bytes.mapM byteToken)))
  | [['c', 'm', 'd'], i] => do some (.cmd (← instrOfName i))
  | ['i', 'n', 'i', 't'] :: args => initLine args
  | [['s', 'e', 'e', 'k'], b] => do some (.seek (← numeral b))
  | [['r', 'e', 'a', 'd'], d, [','], n] => do some (.read (← numeral d) (← numeral n))
  | [['x', 'o', 'r'], s, [','], d, [','], n] => do some (.xor (← numeral s) (← numeral d) (← numeral n))
  | _ => none

/-- The lines of a text. `acc` is the line being read, last character first. -/
def textLines : List Char → List Char → List (List Char)
  | [], acc => [acc.reverse]
  | c :: cs, acc => if c = '\n' then acc.reverse :: textLines cs [] else textLines cs (c :: acc)

/-- The host program of a script text, one operation a line (R64); none where a line is ill-formed. -/
def readScript (text : List Char) : Option (List HostOp) := do
  let lines := ((textLines text []).map (lineTokens · [])).filter (!·.isEmpty)
  let ops ← lines.mapM fun ts => (lineOfTokens ts).bind ScriptLine.ops
  some ops.flatten

end Sys2Proof.Machine
end

