-- ==== Sys2Proof/Machine/Stream.lean ====
section
/-! DEFINITION. The keystream as a function of the key, nonce, counter and round count (R77, R82): what the cursor and
the counter say about the bytes still to come. No step reads this file; claims about READ and XOR are stated in it. -/

namespace Sys2Proof.Machine

/-- The block counter of an engine (R17). -/
def Engine.ctr (e : Engine) : BitVec 64 := Matrix.ctr e.m

/-- The 64 bytes of the block at index `n`: `block(m with counter n, roundCount)`, serialised (R77, R78). -/
def Engine.blockBytes (e : Engine) (n : BitVec 64) : BlockBytes :=
  serialise (block (Matrix.withCtr e.m n) e.roundCount)

/-- Keystream byte `p`, taken modulo 2^70: byte `p mod 64` of block `p div 64` (R82). -/
def Engine.keystreamByte (e : Engine) (p : Nat) : Byte :=
  (e.blockBytes (BitVec.ofNat 64 (p % 2 ^ 70 / 64)))[p % 64]'(Nat.mod_lt _ (by decide))

/-- The stream position `64 * ctr + cursor - 64`, modulo 2^70 (R82). -/
def Engine.streamPos (e : Engine) : Nat := (64 * e.ctr.toNat + e.cursor.val + (2 ^ 70 - 64)) % 2 ^ 70

/-- How many bytes KSBYTE can still serve: the rest of the buffer, and, unless the counter has wrapped, the blocks
from `ctr` to 2^64 - 1 (R79, R80, R81). -/
def Engine.bytesLeft (e : Engine) : Nat :=
  (64 - e.cursor.val) + if e.exhausted then 0 else 64 * (2 ^ 64 - e.ctr.toNat)

/-- The `j`-th byte KSBYTE will serve from here: the rest of the buffer, then the blocks from `ctr` on (R81). -/
def Engine.upcomingByte (e : Engine) (j : Nat) : Byte :=
  if h : e.cursor.val + j < 64 then e.outbuf[e.cursor.val + j]
  else
    (e.blockBytes (e.ctr + BitVec.ofNat 64 ((e.cursor.val + j - 64) / 64)))[(e.cursor.val + j) % 64]'(
      Nat.mod_lt _ (by decide))

/-- How many times NEXT runs while `c` more bytes are served: refill is lazy (R81). -/
def Engine.refills (e : Engine) (c : Nat) : Nat := (e.cursor.val + c - 1) / 64

/-- The engine after `c` more bytes have been served, `c` ≤ `bytesLeft` (R79, R80, R81): one NEXT per refill, the
buffer the block of the last one, and `exhausted` set if a refill took the counter past 2^64 - 1. -/
def Engine.afterBytes (e : Engine) (c : Nat) : Engine :=
  { e with
    m := Matrix.withCtr e.m (e.ctr + BitVec.ofNat 64 (e.refills c))
    outbuf := if e.refills c = 0 then e.outbuf else e.blockBytes (e.ctr + BitVec.ofNat 64 (e.refills c) - 1)
    cursor := ⟨e.cursor.val + c - 64 * e.refills c, by simp only [Engine.refills]; omega⟩
    exhausted := e.exhausted || (e.refills c != 0 && e.ctr.toNat + e.refills c == 2 ^ 64) }

end Sys2Proof.Machine
end

