-- ==== Sys2Proof/Safety.lean ====
section
/-! DEFINITION. What counts as a safe run, and the invariants of the machine that every step keeps.
R126 and D15 have a model treat the halted state as a fault, so that no claim rests on the bytes of an aborted XOR.
The step that enters the halted state faults (log 3), and a run that starts halted is not safe either. -/

namespace Sys2Proof.Machine

/-- The halted state (R27, R127). -/
def State.halted (s : State) : Bool := s.eng.abort

/-- A run of `n` steps that meets no fault, no refusal and no halted state (R126, R127, D15). -/
def safeRun : Nat → State → Bool
  | 0, s => !s.halted
  | n + 1, s =>
    !s.halted &&
      match step s with
      | .next s' => safeRun n s'
      | .fault _ => false
      | .refused _ => false

/-- The host's next operation, an access by host address resolved (R50). -/
def State.nextOp (s : State) : Option HostOp := s.host.script.head?.map (HostOp.resolve s.cfg)

/-- The next operation writes the command word of `i` to CMD (R114). -/
def State.writesCommand (s : State) (i : Instr) : Prop :=
  s.nextOp = some (.write .word Slot.cmd.offset (encode i))

/-- The next operation is a reset, between operations or during a command (R140, R141). -/
def State.resetsNext (s : State) : Prop := s.nextOp = some .reset ∨ ∃ v, s.nextOp = some (.resetDuring v)

/-- The contents of an argument register, the write-only KEY registers too; 0 for the other slots (R28 to R32). -/
def ArgRegs.get (a : ArgRegs) : Slot → Word
  | .key i => a.key[i]
  | .nonce0 => a.nonce0
  | .nonce1 => a.nonce1
  | .rounds => a.rounds
  | .seekLo => a.seekLo
  | .seekHi => a.seekHi
  | .src => a.src
  | .dst => a.dst
  | .len => a.len
  | .cmd | .status | .count | .ctrLo | .ctrHi | .cursor | .reserved _ => 0

/-- A command run `n` times in a row, its arguments as they stand. -/
def execTimes (i : Instr) : Nat → State → Host.Outcome State Fault Refusal
  | 0, s => .next s
  | n + 1, s =>
    match exec i s with
    | .next s' => execTimes i n s'
    | .fault r => .fault r
    | .refused r => .refused r

/-- Data memory is in canonical form and lies inside 0..MEM_SIZE-1 (R40, R47). -/
def State.memoryInv (s : State) : Prop := Memory.wf s.mem = true ∧ ∀ c ∈ s.mem, c.1 < s.cfg.memSize

/-- How the engine's flags and registers hang together (R15, R23, R25, R26, R27, R34, R35). -/
structure Engine.FlagsInv (e : Engine) : Prop where
  /-- After INIT words 0..3 are the constants (R15). -/
  constants : e.ready = true →
    e.m[0] = 0x61707865#32 ∧ e.m[1] = 0x3320646E#32 ∧ e.m[2] = 0x79622D32#32 ∧ e.m[3] = 0x6B206574#32
  /-- After INIT the round count is even and not 0 (R23). -/
  rounds : e.ready = true → e.roundCount ≠ 0 ∧ e.roundCount.toNat % 2 = 0
  /-- Before the first INIT everything but `err` and the argument registers is at its reset value (R26, R140). -/
  notReady : e.ready = false → e = { Engine.reset with err := e.err, args := e.args }
  /-- `exhausted` stands only on a wrapped counter (R25, R79). -/
  exhausted : e.exhausted = true → e.ready = true ∧ Matrix.ctr e.m = 0
  /-- A counter of 0 with bytes left in the buffer has wrapped (R79, R82). -/
  wrapped : e.cursor.val < 64 → Matrix.ctr e.m = 0 → e.exhausted = true
  /-- `eos` stands only while the stream is exhausted and the buffer empty (R34, R97, R125). -/
  eos : e.eos = true → e.exhausted = true ∧ e.cursor.val = 64
  /-- What an exhaustion abort leaves (R126). -/
  abort : e.abort = true → e.exhausted = true ∧ e.cursor.val = 64 ∧ e.eos = false
  /-- ERR is EXHAUSTION_ABORT or HALTED exactly while the engine is halted (R35, R126, R127). -/
  halted : e.abort = true ↔ (e.err = .exhaustionAbort ∨ e.err = .halted)
  /-- ERR is NOT_INIT only before the first INIT (R123). -/
  notInit : e.err = .notInit → e.ready = false

/-- Unconsumed bytes are bytes of the block before the counter (R82). -/
def Engine.bufferInv (e : Engine) : Prop :=
  e.cursor.val < 64 → e.ready = true ∧ e.outbuf = e.blockBytes (e.ctr - 1)

/-- The invariant of the machine. -/
structure State.Inv (s : State) : Prop where
  memory : s.memoryInv
  flags : s.eng.FlagsInv
  buffer : s.eng.bufferInv

end Sys2Proof.Machine
end

