-- ==== Sys2Proof/Certificates/Slice0/Obligations.lean ====
section
/-! DEFINITION. The statements about CHACHA-CORE, each named for what it says. A statement about `exec` holds in every
state unless its docstring names an invariant it assumes. "Next operation" is the head of the host's script. -/

open Sys2Proof Sys2Proof.Machine

/-! ### Reset and idling -/

/-- R140: reset gives every engine element its reset value, and so STATUS, COUNT, CTR_LO, CTR_HI 0 and CURSOR 0x40; it
touches neither data memory nor anything outside the engine but the host's script and position. That a reset event is an
entry of the script, which is taken off it and advances the position by 1, is the model's choice (log 17). The same engine
stands in `State.reset`. -/
def Obligations.ResetRestoresEveryEngineElement : Prop :=
  (∀ (s : State) (rest : List HostOp), s.host.script = .reset :: rest →
    step s = .next { s with
      eng := Engine.reset
      host := { s.host with script := rest, position := s.host.position + 1 } }) ∧
  State.reset.eng = Engine.reset ∧
  (∀ i : Fin 16, Engine.reset.m[i] = 0) ∧ (∀ j : Fin 64, Engine.reset.outbuf[j] = 0) ∧
  Engine.reset.cursor.val = 64 ∧ Engine.reset.roundCount = 0 ∧ Engine.reset.exhausted = false ∧
  Engine.reset.ready = false ∧ Engine.reset.abort = false ∧ Engine.reset.eos = false ∧ Engine.reset.err = .ok ∧
  Engine.reset.count = 0 ∧ (∀ r : Slot, Engine.reset.args.get r = 0) ∧
  Engine.reset.readSlot .status = 0 ∧ Engine.reset.readSlot .count = 0 ∧ Engine.reset.readSlot .ctrLo = 0 ∧
  Engine.reset.readSlot .ctrHi = 0 ∧ Engine.reset.readSlot .cursor = 0x40

/-- The state after reset meets the invariant (the three parts that every step keeps, below). -/
def Obligations.ResetStateMeetsTheInvariant : Prop := State.reset.Inv

/-- R141: a reset while a command runs resets the engine; data memory outside DST..DST+LEN-1 is unchanged. An accepted
READ or XOR leaves the bytes of that range without a value (unspecified, log 4 and log 7); in every other case all of data
memory is unchanged. That the CMD write and the reset are one entry of the script, which advances the
position by 1, is the model's choice (logs 7 and 17). -/
def Obligations.ResetDuringCommandLosesOnlyTheTargetBytes : Prop :=
  ∀ (s : State) (v : Word) (rest : List HostOp), s.host.script = .resetDuring v :: rest →
    ∃ t, step s = .next t ∧ t.eng = Engine.reset ∧ t.cfg = s.cfg ∧ t.draws = s.draws ∧
      t.host = { s.host with script := rest, position := s.host.position + 1 } ∧
      (∀ a, ¬ (s.eng.args.dst.toNat ≤ a ∧ a < s.eng.args.dst.toNat + s.eng.args.len.toNat) →
        Memory.lookup t.mem a = Memory.lookup s.mem a) ∧
      (∀ i, (i = .read ∨ i = .xor) → v = encode i → cmdCheck i s = none →
        ∀ a, s.eng.args.dst.toNat ≤ a ∧ a < s.eng.args.dst.toNat + s.eng.args.len.toNat →
          Memory.lookup t.mem a = none) ∧
      ((∀ i, (i = .read ∨ i = .xor) → v = encode i → cmdCheck i s ≠ none) → t.mem = s.mem)

/-- R137, R66: with no host operation left, nothing changes (log 2). -/
def Obligations.EmptyScriptIdles : Prop :=
  ∀ s : State, s.host.script = [] → step s = .next s

/-! ### Invariants that every step keeps -/

/-- Data memory stays in canonical form and inside 0..MEM_SIZE-1, whatever the host does (R40, R47). -/
def Obligations.StepKeepsMemoryCanonical : Prop :=
  ∀ s t : State, s.memoryInv → step s = .next t → t.memoryInv

/-- The flags and registers of the engine stay consistent: constants and an even round count after INIT, the reset
values before it, `exhausted` only on a wrapped counter, `eos` and `abort` only at the end of the stream, ERR 5 and 6
exactly while halted, ERR 2 only before INIT (R15, R23, R25, R26, R27, R34, R35, R123, R126). -/
def Obligations.StepKeepsFlagsConsistent : Prop :=
  ∀ s t : State, s.eng.FlagsInv → step s = .next t → t.eng.FlagsInv

/-- The unconsumed bytes of the output buffer stay bytes of the block before the counter (R82). -/
def Obligations.StepKeepsBufferedBlock : Prop :=
  ∀ s t : State, s.eng.bufferInv → step s = .next t → t.eng.bufferInv

/-- Every command keeps each part of the invariant, an XOR that aborts too, whose step faults (R126). That the abort
answers a next state of `exec` is the model's choice (log 3). -/
def Obligations.CommandsKeepTheInvariant : Prop :=
  ∀ (i : Instr) (s t : State), exec i s = .next t →
    (s.memoryInv → t.memoryInv) ∧ (s.eng.FlagsInv → t.eng.FlagsInv) ∧ (s.eng.bufferInv → t.eng.bufferInv)

/-! ### Encoding, and the step -/

/-- R61: the decoder is total, and exactly the words 1, 2, 3 and 4 are commands. -/
def Obligations.DecodeAcceptsExactlyFourWords : Prop :=
  ∀ v : Word,
    (v = 0x00000001#32 → decode v = .ok .init) ∧ (v = 0x00000002#32 → decode v = .ok .seek) ∧
    (v = 0x00000003#32 → decode v = .ok .read) ∧ (v = 0x00000004#32 → decode v = .ok .xor) ∧
    (v ≠ 0x00000001#32 → v ≠ 0x00000002#32 → v ≠ 0x00000003#32 → v ≠ 0x00000004#32 →
      decode v = .error (.illegalCmd v))

/-- Decoding the byte lanes of an encoded command gives the command back, as does the table's own number; the lanes of
0x00000101 are no command (R44, R60, R61). -/
def Obligations.CommandWordsRoundTrip : Prop :=
  (∀ i : Instr, i.wellFormed = true → decodeLanes (encodeLanes i) = .ok i ∧
    decodeTableWord 32 (encode i).toNat = some i) ∧
  encodeLanes .init = [0x01, 0, 0, 0] ∧ encodeLanes .seek = [0x02, 0, 0, 0] ∧
  encodeLanes .read = [0x03, 0, 0, 0] ∧ encodeLanes .xor = [0x04, 0, 0, 0] ∧
  decodeLanes [0x01, 0x01, 0, 0] = .error (.illegalCmd 0x00000101)

/-- R59: the slots of the window and their offsets: every aligned offset names one slot, every slot one offset, and no
misaligned offset names any. -/
def Obligations.WindowOffsetsNameTheirSlots : Prop :=
  (∀ r : Slot, Slot.ofOffset r.offset = some r) ∧
  (∀ (off : BitVec 8) (r : Slot), Slot.ofOffset off = some r → r.offset = off) ∧
  (∀ off : BitVec 8, Slot.ofOffset off = none ↔ off.toNat % 4 ≠ 0) ∧
  (∀ i : Fin 8, (Slot.key i).offset.toNat = 4 * i.val) ∧
  (∀ i : Fin 42, (Slot.reserved i).offset.toNat = 0x58 + 4 * i.val)

/-- A step whose next operation writes a command word to CMD (offset 0x40) is that command's meaning, run with the
operation taken off the script (R114, R66); where the command enters the halted state, the step faults (R126). That the
fault stands around `exec` is the model's choice (log 3). -/
def Obligations.StepRunsTheDecodedCommand : Prop :=
  ∀ (s : State) (v : Word) (i : Instr) (rest : List HostOp),
    s.host.script = .write .word 0x40 v :: rest → decode v = .ok i →
    ∃ t, exec i { s with host := { s.host with script := rest, position := s.host.position + 1 } } = .next t ∧
      step s = if s.eng.abort = false ∧ t.eng.abort = true then .fault .exhaustionAbort else .next t

/-- The state `withFetchWord` builds runs the table's word as its very next step, and changes the script alone
(log 1); a command that enters the halted state faults the step (log 3). -/
def Obligations.FetchWordRunsNext : Prop :=
  ∀ (s : State) (nbits w : Nat) (i : Instr), decodeTableWord nbits w = some i →
    ∃ t, exec i { s with host := { s.host with position := s.host.position + 1 } } = .next t ∧
      step (s.withFetchWord nbits w) =
        if s.eng.abort = false ∧ t.eng.abort = true then .fault .exhaustionAbort else .next t

/-- R103: a CMD value other than 1, 2, 3, 4 writes ERR alone: ILLEGAL_CMD, or HALTED while `abort = 1`. -/
def Obligations.IllegalCommandWritesOnlyErr : Prop :=
  ∀ (s : State) (v : Word) (rest : List HostOp), s.host.script = .write .word 0x40 v :: rest →
    v ≠ 1 → v ≠ 2 → v ≠ 3 → v ≠ 4 →
    step s = .next { s with
      eng := { s.eng with err := if s.eng.abort = true then .halted else .illegalCmd }
      host := { s.host with script := rest, position := s.host.position + 1 } }

/-! ### The commands -/

/-- R91, R128: INIT. Accepted, it builds the whole cipher state from the argument registers and changes nothing else;
with ROUNDS 0 or odd, or halted, it writes ERR alone. -/
def Obligations.InitBuildsTheCipherState : Prop :=
  ∀ s : State,
    (s.eng.abort = false → s.eng.args.rounds ≠ 0 → s.eng.args.rounds.toNat % 2 = 0 →
      exec .init s = .next { s with eng := { s.eng with
        m := #v[0x61707865, 0x3320646E, 0x79622D32, 0x6B206574,
          s.eng.args.key[0], s.eng.args.key[1], s.eng.args.key[2], s.eng.args.key[3],
          s.eng.args.key[4], s.eng.args.key[5], s.eng.args.key[6], s.eng.args.key[7],
          0, 0, s.eng.args.nonce0, s.eng.args.nonce1]
        roundCount := s.eng.args.rounds
        outbuf := Vector.replicate 64 0
        cursor := 64
        exhausted := false
        ready := true
        count := 0
        eos := false
        err := .ok } }) ∧
    (s.eng.abort = false → (s.eng.args.rounds = 0 ∨ s.eng.args.rounds.toNat % 2 = 1) →
      exec .init s = .next { s with eng := { s.eng with err := .badRounds } }) ∧
    (s.eng.abort = true → exec .init s = .next { s with eng := { s.eng with err := .halted } })

/-- R94: SEEK. Accepted, it generates the block of the index in SEEK_HI ++ SEEK_LO, whatever `exhausted` was, and
leaves the counter one past it, `exhausted` set exactly after block 2^64-1; it never fails. -/
def Obligations.SeekGeneratesTheSoughtBlock : Prop :=
  ∀ (s : State) (n : BitVec 64), n = s.eng.args.seekHi ++ s.eng.args.seekLo →
    (s.eng.abort = false → s.eng.ready = true →
      exec .seek s = .next { s with eng := { s.eng with
        m := Matrix.withCtr s.eng.m (n + 1)
        outbuf := serialise (block (Matrix.withCtr s.eng.m n) s.eng.roundCount)
        cursor := 0
        exhausted := decide (n.toNat = 2 ^ 64 - 1)
        count := 0
        eos := false
        err := .ok } }) ∧
    (s.eng.abort = false → s.eng.ready = false →
      exec .seek s = .next { s with eng := { s.eng with err := .notInit } }) ∧
    (s.eng.abort = true → exec .seek s = .next { s with eng := { s.eng with err := .halted } })

/-- R97: READ. Accepted, it writes the next min(LEN, bytes left) bytes of the stream to DST upwards, nothing else of
data memory, and reports the number in COUNT and the shortfall in EOS; the engine is then the one that has served that
many bytes (after a shortfall, at the end of the stream with an empty buffer). Rejected, it writes ERR alone. -/
def Obligations.ReadWritesTheUpcomingBytes : Prop :=
  ∀ (s : State) (n c : Nat), n = s.eng.args.len.toNat → c = min n s.eng.bytesLeft →
    (s.eng.abort = false → s.eng.ready = true → (n = 0 ∨ s.eng.args.dst.toNat + n ≤ s.cfg.memSize) →
      ∃ mem, exec .read s = .next { s with
          eng := { s.eng.afterBytes c with
            count := BitVec.ofNat 32 c
            eos := decide (s.eng.bytesLeft < n)
            err := .ok }
          mem := mem } ∧
        (s.eng.bytesLeft < n → (s.eng.afterBytes c).cursor.val = 64 ∧ (s.eng.afterBytes c).exhausted = true) ∧
        (∀ j, j < c → Memory.lookup mem (s.eng.args.dst.toNat + j) = some (s.eng.upcomingByte j)) ∧
        ∀ a, ¬ (s.eng.args.dst.toNat ≤ a ∧ a < s.eng.args.dst.toNat + c) →
          Memory.lookup mem a = Memory.lookup s.mem a) ∧
    (s.eng.abort = false → s.eng.ready = true → n ≠ 0 → s.cfg.memSize < s.eng.args.dst.toNat + n →
      exec .read s = .next { s with eng := { s.eng with err := .range } }) ∧
    (s.eng.abort = false → s.eng.ready = false →
      exec .read s = .next { s with eng := { s.eng with err := .notInit } }) ∧
    (s.eng.abort = true → exec .read s = .next { s with eng := { s.eng with err := .halted } })

/-- The byte XOR reads for index `j`, in terms of data memory before (`old`) and after (`new`) it: a byte of the output
that an earlier index wrote, or the byte that stood there before (R51). -/
def xorSourceByte (old new : Memory) (src dst j : Nat) : Option Byte :=
  if dst ≤ src + j ∧ src + j < dst + j then Memory.lookup new (src + j) else Memory.lookup old (src + j)

/-- R100, R126: XOR. Accepted with enough of the stream left, it writes source byte exclusive-or stream byte to every
address DST..DST+LEN-1 and nothing else of data memory; a source byte that holds no value is a free one (R41, log 4),
whatever it is. With too little left it does the same for the bytes there are, then aborts: COUNT is their number, EOS
0, ABORT 1, ERR EXHAUSTION_ABORT, the cursor 64 and `exhausted` 1. Rejected, it writes ERR alone.
Two parts are the model's choice. That the abort answers a next state of `exec`, whose bytes this describes, is log 3's:
R100, R126 and D15 have a model fault there, and the step does (`EnteringTheHaltedStateFaults`). The draw counter is
log 4's. -/
def Obligations.XorAppliesTheUpcomingBytes : Prop :=
  ∀ (s : State) (n c : Nat), n = s.eng.args.len.toNat → c = min n s.eng.bytesLeft →
    (s.eng.abort = false → s.eng.ready = true → (n = 0 ∨ s.eng.args.src.toNat + n ≤ s.cfg.memSize) →
      (n = 0 ∨ s.eng.args.dst.toNat + n ≤ s.cfg.memSize) →
      ∃ mem draws, s.draws ≤ draws ∧
        (n ≤ s.eng.bytesLeft → exec .xor s = .next { s with
          eng := { s.eng.afterBytes c with count := BitVec.ofNat 32 c, eos := false, err := .ok }
          mem := mem
          draws := draws }) ∧
        (s.eng.bytesLeft < n → exec .xor s = .next { s with
          eng := { s.eng.afterBytes c with
            count := BitVec.ofNat 32 c
            eos := false
            abort := true
            err := .exhaustionAbort }
          mem := mem
          draws := draws }) ∧
        (s.eng.bytesLeft < n → (s.eng.afterBytes c).cursor.val = 64 ∧ (s.eng.afterBytes c).exhausted = true) ∧
        (∀ j, j < c → ∃ v, Memory.lookup mem (s.eng.args.dst.toNat + j) = some (v ^^^ s.eng.upcomingByte j) ∧
          (xorSourceByte s.mem mem s.eng.args.src.toNat s.eng.args.dst.toNat j = some v ∨
            xorSourceByte s.mem mem s.eng.args.src.toNat s.eng.args.dst.toNat j = none ∧
              ∃ k, s.draws ≤ k ∧ k < draws ∧ v = Config.freeByte k)) ∧
        ∀ a, ¬ (s.eng.args.dst.toNat ≤ a ∧ a < s.eng.args.dst.toNat + c) →
          Memory.lookup mem a = Memory.lookup s.mem a) ∧
    (s.eng.abort = false → s.eng.ready = true → n ≠ 0 →
      (s.cfg.memSize < s.eng.args.src.toNat + n ∨ s.cfg.memSize < s.eng.args.dst.toNat + n) →
      exec .xor s = .next { s with eng := { s.eng with err := .range } }) ∧
    (s.eng.abort = false → s.eng.ready = false →
      exec .xor s = .next { s with eng := { s.eng with err := .notInit } }) ∧
    (s.eng.abort = true → exec .xor s = .next { s with eng := { s.eng with err := .halted } })

/-- A command always ends in a next state: accepted, rejected or aborted, its meaning neither faults nor is refused;
SEEK's internal invariant never breaks (R90, R94, D43). That an XOR which runs out of keystream answers one is the
model's choice (log 3): R126 and D15 have a model fault there, and the step does (`EnteringTheHaltedStateFaults`). -/
def Obligations.CommandsAlwaysEndInANextState : Prop :=
  ∀ (i : Instr) (s : State), ∃ t, exec i s = .next t

/-- R129: the code a CMD write leaves in ERR, whatever the value written and the state: HALTED, ILLEGAL_CMD, NOT_INIT,
BAD_ROUNDS, RANGE in that order, then EXHAUSTION_ABORT or OK from the command itself. That the abort answers a next
state of the CMD write is the model's choice (log 3): R126 and D15 have a model fault there, and the step does. -/
def Obligations.CommandOutcomeFollowsThePriority : Prop :=
  ∀ (s : State) (v : Word), ∃ t, cmdWrite v s = .next t ∧
    t.eng.err =
      if s.eng.abort = true then .halted
      else if v ≠ 1 ∧ v ≠ 2 ∧ v ≠ 3 ∧ v ≠ 4 then .illegalCmd
      else if v ≠ 1 ∧ s.eng.ready = false then .notInit
      else if v = 1 ∧ (s.eng.args.rounds = 0 ∨ s.eng.args.rounds.toNat % 2 = 1) then .badRounds
      else if (v = 3 ∨ v = 4) ∧ s.eng.args.len ≠ 0 ∧
          s.cfg.memSize < s.eng.args.dst.toNat + s.eng.args.len.toNat then .range
      else if v = 4 ∧ s.eng.args.len ≠ 0 ∧ s.cfg.memSize < s.eng.args.src.toNat + s.eng.args.len.toNat then .range
      else if v = 4 ∧ s.eng.bytesLeft < s.eng.args.len.toNat then .exhaustionAbort
      else .ok

/-- A rejected CMD write (ERR 1 to 5) changes nothing but ERR (R90, R121). -/
def Obligations.RejectedCommandWritesOnlyErr : Prop :=
  ∀ (s t : State) (v : Word), cmdWrite v s = .next t → t.eng.err ≠ .ok → t.eng.err ≠ .exhaustionAbort →
    t = { s with eng := { s.eng with err := t.eng.err } }

/-- R123, R26: before the first successful INIT the other commands are rejected with NOT_INIT and write ERR alone; only
INIT sets `ready` and only reset clears it. -/
def Obligations.ReadyStandsFromInitToReset : Prop :=
  Engine.reset.ready = false ∧
  (∀ (i : Instr) (s : State), i ≠ .init → s.eng.abort = false → s.eng.ready = false →
    exec i s = .next { s with eng := { s.eng with err := .notInit } }) ∧
  (∀ s t : State, step s = .next t → s.eng.ready = false → t.eng.ready = true →
    s.writesCommand .init ∧ t.eng.err = .ok) ∧
  (∀ s t : State, step s = .next t → s.eng.ready = true → t.eng.ready = false → s.resetsNext) ∧
  (∀ s t : State, exec .init s = .next t → t.eng.err = .ok → t.eng.ready = true)

/-- R124: READ with a DST range, or XOR with a SRC or a DST range, that does not fit in data memory writes ERR = RANGE
alone; with LEN = 0 the check never fails. -/
def Obligations.RangeIsCheckedBeforeAnythingRuns : Prop :=
  (∀ (i : Instr) (s : State) (n : Nat), n = s.eng.args.len.toNat → n ≠ 0 →
    s.eng.abort = false → s.eng.ready = true →
    ((i = .read ∧ s.cfg.memSize < s.eng.args.dst.toNat + n) ∨
      (i = .xor ∧ (s.cfg.memSize < s.eng.args.src.toNat + n ∨ s.cfg.memSize < s.eng.args.dst.toNat + n))) →
    exec i s = .next { s with eng := { s.eng with err := .range } }) ∧
  (∀ (i : Instr) (s t : State), s.eng.args.len = 0 → exec i s = .next t → t.eng.err ≠ .range)

/-- R127, R27: while halted every CMD write, legal or not, writes ERR = HALTED alone; register reads and argument writes
work as ever; only reset ends it. What begins it says `EnteringTheHaltedStateFaults`. -/
def Obligations.HaltedUntilReset : Prop :=
  (∀ (s : State) (v : Word) (rest : List HostOp), s.eng.abort = true → s.host.script = .write .word 0x40 v :: rest →
    step s = .next { s with
      eng := { s.eng with err := .halted }
      host := { s.host with script := rest, position := s.host.position + 1 } }) ∧
  (∀ (s : State) (r : Slot) (rest : List HostOp), s.eng.abort = true → s.host.script = .read .word r.offset :: rest →
    step s = .next { s with host := { script := rest, position := s.host.position + 1,
                                      readings := .register (s.eng.readSlot r) :: s.host.readings } }) ∧
  (∀ (s : State) (r : Slot) (v : Word) (rest : List HostOp), s.eng.abort = true → r ≠ .cmd →
    s.host.script = .write .word r.offset v :: rest →
    step s = .next { s with
      eng := { s.eng with args := s.eng.args.write r v }
      host := { s.host with script := rest, position := s.host.position + 1 } }) ∧
  (∀ s t : State, step s = .next t → s.eng.abort = true → t.eng.abort = false →
    s.resetsNext ∧ t.eng = Engine.reset)

/-- Entering the halted state is a fault of the run (R126, D15, R27): the step of an accepted XOR with fewer bytes left
than LEN faults, no other step raises that fault, no step that answers a next state halts the engine, and of the commands
only such an XOR halts it. That the fault stands in the step, and that `exec` answers a next state for the abort, is the
model's choice (log 3). -/
def Obligations.EnteringTheHaltedStateFaults : Prop :=
  (∀ (s : State) (n : Nat), s.writesCommand .xor →
    n = s.eng.args.len.toNat → s.eng.abort = false → s.eng.ready = true →
    s.eng.args.src.toNat + n ≤ s.cfg.memSize → s.eng.args.dst.toNat + n ≤ s.cfg.memSize → s.eng.bytesLeft < n →
    step s = .fault .exhaustionAbort) ∧
  (∀ s : State, step s = .fault .exhaustionAbort →
    s.writesCommand .xor ∧ s.eng.abort = false ∧ s.eng.ready = true ∧ s.eng.bytesLeft < s.eng.args.len.toNat) ∧
  (∀ s t : State, step s = .next t → s.eng.abort = false → t.eng.abort = false) ∧
  (∀ (i : Instr) (s t : State), exec i s = .next t → s.eng.abort = false → t.eng.abort = true →
    i = .xor ∧ t.eng.err = .exhaustionAbort ∧ s.eng.bytesLeft < s.eng.args.len.toNat)

/-- The frame of the commands: no command changes an argument register, the platform or the host; INIT and SEEK leave
data memory alone; SEEK, READ and XOR leave the key and nonce words, the constants, the round count and `ready` alone;
INIT, SEEK and READ leave `abort` alone (R19, R32, R38, D38). -/
def Obligations.CommandFrames : Prop :=
  ∀ (i : Instr) (s t : State), exec i s = .next t →
    t.eng.args = s.eng.args ∧ t.cfg = s.cfg ∧ t.host = s.host ∧
    (i = .init ∨ i = .seek → t.mem = s.mem) ∧
    (i ≠ .xor → t.draws = s.draws ∧ t.eng.abort = s.eng.abort) ∧
    (i ≠ .init → t.eng.ready = s.eng.ready ∧ t.eng.roundCount = s.eng.roundCount ∧
      ∀ k : Fin 16, k ≠ 12 → k ≠ 13 → t.eng.m[k] = s.eng.m[k])

/-- The memory frame of READ and XOR, accepted, rejected or aborted: every address outside the bytes stored, DST up for
COUNT of them when accepted and none when rejected, reads as before (R97, R100, R126, R121). That an aborted XOR has a
next state to speak of is the model's choice (log 3). -/
def Obligations.ReadAndXorMemoryFrame : Prop :=
  ∀ (i : Instr) (s t : State), (i = .read ∨ i = .xor) → exec i s = .next t →
    (∀ a, ¬ (s.eng.args.dst.toNat ≤ a ∧ a < s.eng.args.dst.toNat + t.eng.count.toNat) →
      (t.eng.err = .ok ∨ t.eng.err = .exhaustionAbort) → Memory.lookup t.mem a = Memory.lookup s.mem a) ∧
    (t.eng.err ≠ .ok → t.eng.err ≠ .exhaustionAbort → t.mem = s.mem) ∧
    ((t.eng.err = .ok ∨ t.eng.err = .exhaustionAbort) → t.eng.count.toNat ≤ s.eng.args.len.toNat)

/-- LEN = 0: READ and XOR do nothing but write COUNT = 0, EOS = 0 and ERR = OK, wherever the stream stands and whatever
the addresses are (R97 corner case (a), R100 corner case (a), R47). -/
def Obligations.ZeroLengthDoesNothing : Prop :=
  ∀ (i : Instr) (s : State), (i = .read ∨ i = .xor) → s.eng.abort = false → s.eng.ready = true →
    s.eng.args.len = 0 →
    exec i s = .next { s with eng := { s.eng with count := 0, eos := false, err := .ok } }

/-- At the end of the stream READ of at least one byte changes COUNT, EOS and ERR alone: 0 bytes, end of stream, no
error (R97 corner case (e), R125). -/
def Obligations.ReadAtTheEndOfTheStream : Prop :=
  ∀ s : State, s.eng.abort = false → s.eng.ready = true → s.eng.exhausted = true → s.eng.cursor.val = 64 →
    s.eng.args.len ≠ 0 → s.eng.args.dst.toNat + s.eng.args.len.toNat ≤ s.cfg.memSize →
    exec .read s = .next { s with eng := { s.eng with count := 0, eos := true, err := .ok } }

/-! ### The block function and the consumption of keystream -/

/-- R71: QR on four distinct indices applies the four add, exclusive-or, rotate steps to those words and leaves the
others alone. -/
def Obligations.QuarterRoundMixesItsFourWords : Prop :=
  ∀ (a b c d : Fin 16) (x : Matrix), a ≠ b → a ≠ c → a ≠ d → b ≠ c → b ≠ d → c ≠ d →
    ∀ (a1 d1 c1 b1 a2 d2 c2 b2 : Word),
      a1 = x[a] + x[b] → d1 = (x[d] ^^^ a1).rotateLeft 16 →
      c1 = x[c] + d1 → b1 = (x[b] ^^^ c1).rotateLeft 12 →
      a2 = a1 + b1 → d2 = (d1 ^^^ a2).rotateLeft 8 →
      c2 = c1 + d2 → b2 = (b1 ^^^ c2).rotateLeft 7 →
      (quarterRound a b c d x)[a] = a2 ∧ (quarterRound a b c d x)[b] = b2 ∧
      (quarterRound a b c d x)[c] = c2 ∧ (quarterRound a b c d x)[d] = d2 ∧
      ∀ i : Fin 16, i ≠ a → i ≠ b → i ≠ c → i ≠ d → (quarterRound a b c d x)[i] = x[i]

/-- Quarter-rounds on disjoint groups commute, so the order within the column pass and within the diagonal pass does
not matter (R72, R73, their corner cases). -/
def Obligations.DisjointQuarterRoundsCommute : Prop :=
  ∀ (g h : List (Fin 16)) (a b c d a' b' c' d' : Fin 16) (x : Matrix),
    g = [a, b, c, d] → h = [a', b', c', d'] → g.Nodup → h.Nodup → (∀ i ∈ g, i ∉ h) →
    quarterRound a b c d (quarterRound a' b' c' d' x) = quarterRound a' b' c' d' (quarterRound a b c d x)

/-- R75, R74, R72, R73: PERMUTE starts from the matrix and runs, roundCount div 2 times, the eight quarter-rounds of a
double round, the column pass first, each pass in the order of its rule. -/
def Obligations.PermuteRunsHalfTheRoundCount : Prop :=
  ∀ (m : Matrix) (roundCount : Word),
    permute m roundCount = Nat.repeat
      (fun x =>
        quarterRound 3 4 9 14 <| quarterRound 2 7 8 13 <| quarterRound 1 6 11 12 <| quarterRound 0 5 10 15 <|
        quarterRound 3 7 11 15 <| quarterRound 2 6 10 14 <| quarterRound 1 5 9 13 <| quarterRound 0 4 8 12 x)
      (roundCount.toNat / 2) m

/-- R76, R77: a block word is the permuted word plus the matrix word, modulo 2^32. -/
def Obligations.BlockAddsTheMatrixBack : Prop :=
  ∀ (m : Matrix) (roundCount : Word) (i : Fin 16),
    (block m roundCount)[i].toNat = ((permute m roundCount)[i].toNat + m[i].toNat) % 2 ^ 32

/-- SERIALISE writes each word's low byte first: bytes 4i..4i+3 read little-endian give word i, and byte 4i+k is bits
[8k+7:8k] of it (R78, R42, R43). -/
def Obligations.SerialiseIsLittleEndian : Prop :=
  ∀ (y : Matrix) (i : Fin 16),
    le32 ((serialise y)[4 * i.val]'(by omega)) ((serialise y)[4 * i.val + 1]'(by omega))
      ((serialise y)[4 * i.val + 2]'(by omega)) ((serialise y)[4 * i.val + 3]'(by omega)) = y[i] ∧
    ∀ k : Fin 4, ((serialise y)[4 * i.val + k.val]'(by omega)).toNat = y[i].toNat / 2 ^ (8 * k.val) % 2 ^ 8

/-- R79: CTRINC adds 1 to the 64-bit counter modulo 2^64, word 12 the low half; it sets `exhausted` exactly when the
counter was 2^64-1, never clears it, and changes nothing else. -/
def Obligations.CounterIncrement : Prop :=
  ∀ e : Engine,
    ((e.ctrInc.m[13] ++ e.ctrInc.m[12] : BitVec 64).toNat = ((e.m[13] ++ e.m[12] : BitVec 64).toNat + 1) % 2 ^ 64) ∧
    (∀ i : Fin 16, i ≠ 12 → i ≠ 13 → e.ctrInc.m[i] = e.m[i]) ∧
    (e.ctrInc.exhausted = true ↔ e.exhausted = true ∨ (e.m[13] ++ e.m[12] : BitVec 64).toNat = 2 ^ 64 - 1) ∧
    e.ctrInc = { e with m := e.ctrInc.m, exhausted := e.ctrInc.exhausted }

/-- R80: NEXT fails, changing nothing, exactly when `exhausted` stands; otherwise it leaves the block of the counter in
`outbuf`, the cursor at 0, the counter one further, and `exhausted` set if and only if that was block 2^64-1. -/
def Obligations.NextGeneratesTheBlockOfTheCounter : Prop :=
  ∀ e : Engine,
    (e.exhausted = true → e.next = none) ∧
    (e.exhausted = false → e.next = some { e with
      outbuf := serialise (block e.m e.roundCount)
      cursor := 0
      m := Matrix.withCtr e.m (Matrix.ctr e.m + 1)
      exhausted := decide ((Matrix.ctr e.m).toNat = 2 ^ 64 - 1) })

/-- R81: KSBYTE serves the buffer's next byte without a NEXT while one is left, even when `exhausted`; with an empty
buffer it runs NEXT and serves byte 0 of the new block; it fails, changing nothing, with an empty buffer at the end of
the stream. -/
def Obligations.KsByteRefillsLazily : Prop :=
  ∀ e : Engine,
    (∀ h : e.cursor.val < 64,
      e.ksByte = some (e.outbuf[e.cursor.val], { e with cursor := ⟨e.cursor.val + 1, by omega⟩ })) ∧
    (∀ e', e.cursor.val = 64 → e.next = some e' → e.ksByte = some (e'.outbuf[0], { e' with cursor := 1 })) ∧
    (e.cursor.val = 64 → e.next = none → e.ksByte = none)

/-- KSBYTE fails exactly when no byte is left; otherwise it serves the first upcoming byte, and the bytes after that are
the upcoming bytes of the engine it leaves, one fewer (R79, R80, R81). So `upcomingByte`, `bytesLeft` and `afterBytes`,
in which READ and XOR are stated, are what repeated KSBYTEs do. -/
def Obligations.KsByteServesTheUpcomingByte : Prop :=
  ∀ e : Engine,
    (e.ksByte = none ↔ e.bytesLeft = 0) ∧
    ∀ b e', e.ksByte = some (b, e') →
      b = e.upcomingByte 0 ∧ e'.bytesLeft + 1 = e.bytesLeft ∧ (∀ j, e'.upcomingByte j = e.upcomingByte (j + 1)) ∧
      e' = e.afterBytes 1 ∧ ∀ c, c ≤ e'.bytesLeft → e'.afterBytes c = e.afterBytes (c + 1)

/-! ### The keystream -/

/-- The upcoming bytes are the keystream from the stream position on (R82), given the invariant. -/
def Obligations.UpcomingBytesAreTheKeystream : Prop :=
  ∀ e : Engine, e.FlagsInv → e.bufferInv → ∀ j, j < e.bytesLeft →
    e.upcomingByte j = e.keystreamByte (e.streamPos + j)

/-- READ writes the keystream from the stream position to data memory in stream order, and moves the position by what it
wrote (R82, R43, R97), given the invariant. -/
def Obligations.ReadWritesTheKeystreamAtTheStreamPosition : Prop :=
  ∀ s : State, s.Inv → s.eng.abort = false → s.eng.ready = true →
    (s.eng.args.len.toNat = 0 ∨ s.eng.args.dst.toNat + s.eng.args.len.toNat ≤ s.cfg.memSize) →
    ∃ t, exec .read s = .next t ∧ t.eng.count.toNat = min s.eng.args.len.toNat s.eng.bytesLeft ∧
      t.eng.streamPos = (s.eng.streamPos + t.eng.count.toNat) % 2 ^ 70 ∧
      ∀ j, j < t.eng.count.toNat →
        Memory.lookup t.mem (s.eng.args.dst.toNat + j) = some (s.eng.keystreamByte (s.eng.streamPos + j))

/-- After INIT and after SEEK to block 0 the stream is the same, though the counter and the cursor are not: counter 0
and cursor 64, against counter 1 and cursor 0 (R92). -/
def Obligations.SeekZeroReplaysTheStreamOfInit : Prop :=
  ∀ s : State, s.eng.abort = false → s.eng.args.rounds ≠ 0 → s.eng.args.rounds.toNat % 2 = 0 →
    s.eng.args.seekLo = 0 → s.eng.args.seekHi = 0 →
    ∃ t u, exec .init s = .next t ∧ exec .seek t = .next u ∧
      t.eng.ctr = 0 ∧ t.eng.cursor.val = 64 ∧ u.eng.ctr = 1 ∧ u.eng.cursor.val = 0 ∧
      t.eng.bytesLeft = 2 ^ 70 ∧ u.eng.bytesLeft = 2 ^ 70 ∧
      ∀ j, t.eng.upcomingByte j = t.eng.keystreamByte j ∧ u.eng.upcomingByte j = t.eng.keystreamByte j

/-- SEEK(n) and one READ of 64 bytes leave the same engine and the same data memory as n READs of 64 bytes from a fresh
INIT and one more: block n at DST, counter n + 1, cursor 64 (R95). -/
def Obligations.SeekAgreesWithLinearReading : Prop :=
  ∀ (s : State) (n : Nat), n < 2 ^ 64 → s.eng.abort = false →
    s.eng.args.rounds ≠ 0 → s.eng.args.rounds.toNat % 2 = 0 →
    s.eng.args.seekHi ++ s.eng.args.seekLo = BitVec.ofNat 64 n → s.eng.args.len = 64 →
    s.eng.args.dst.toNat + 64 ≤ s.cfg.memSize →
    ∃ t a u b, exec .init s = .next t ∧ execTimes .read (n + 1) t = .next a ∧
      exec .seek t = .next u ∧ exec .read u = .next b ∧
      a.eng = b.eng ∧ (∀ x, Memory.lookup a.mem x = Memory.lookup b.mem x) ∧
      (∀ j : Fin 64, Memory.lookup a.mem (s.eng.args.dst.toNat + j.val) =
        some (t.eng.blockBytes (BitVec.ofNat 64 n))[j]) ∧
      a.eng.ctr = BitVec.ofNat 64 (n + 1) ∧ a.eng.cursor.val = 64 ∧ a.eng.count = 64 ∧ a.eng.eos = false

/-- SEEK to block 2^64-1 and a READ of 64 bytes succeed and leave the stream exhausted with counter 0; a further READ
of one byte or more reports end of stream and writes nothing (R98). -/
def Obligations.ExhaustionBoundary : Prop :=
  ∀ (s : State), s.eng.abort = false → s.eng.ready = true → s.eng.args.seekLo = 0xFFFFFFFF →
    s.eng.args.seekHi = 0xFFFFFFFF → s.eng.args.len = 64 → s.eng.args.dst.toNat + 64 ≤ s.cfg.memSize →
    ∃ t u, exec .seek s = .next t ∧ exec .read t = .next u ∧
      u.eng.count = 64 ∧ u.eng.eos = false ∧ u.eng.exhausted = true ∧ u.eng.ctr = 0 ∧
      ∀ dst len : Word, len ≠ 0 → dst.toNat + len.toNat ≤ s.cfg.memSize →
        ∃ w, exec .read { u with eng := { u.eng with args := { u.eng.args with dst := dst, len := len } } } = .next w ∧
          w.eng.count = 0 ∧ w.eng.eos = true ∧ w.eng.err = .ok ∧ w.mem = u.mem

/-- Exclusive-or involution (R104): an XOR that completes, and a second XOR whose source is the first one's output and
whose engine stands at the same position of the same stream, give the first one's input back; each has SRC = DST or
disjoint ranges, and the input bytes hold values. -/
def Obligations.XorTwiceRestoresTheInput : Prop :=
  ∀ s t u : State, s.Inv → u.Inv →
    s.eng.abort = false → s.eng.ready = true → u.eng.abort = false → u.eng.ready = true →
    ∀ n src dst src' dst' : Nat,
      n = s.eng.args.len.toNat → src = s.eng.args.src.toNat → dst = s.eng.args.dst.toNat →
      n = u.eng.args.len.toNat → src' = u.eng.args.src.toNat → dst' = u.eng.args.dst.toNat →
      src + n ≤ s.cfg.memSize → dst + n ≤ s.cfg.memSize → src' + n ≤ u.cfg.memSize → dst' + n ≤ u.cfg.memSize →
      (src = dst ∨ src + n ≤ dst ∨ dst + n ≤ src) → (src' = dst' ∨ src' + n ≤ dst' ∨ dst' + n ≤ src') →
      n ≤ s.eng.bytesLeft → n ≤ u.eng.bytesLeft →
      u.eng.roundCount = s.eng.roundCount → (∀ k : Fin 16, k ≠ 12 → k ≠ 13 → u.eng.m[k] = s.eng.m[k]) →
      u.eng.streamPos = s.eng.streamPos →
      exec .xor s = .next t →
      (∀ j, j < n → (Memory.lookup s.mem (src + j)).isSome = true) →
      (∀ j, j < n → Memory.lookup u.mem (src' + j) = Memory.lookup t.mem (dst + j)) →
      ∃ w, exec .xor u = .next w ∧ w.eng.count.toNat = n ∧ w.eng.err = .ok ∧
        ∀ j, j < n → Memory.lookup w.mem (dst' + j) = Memory.lookup s.mem (src + j)

/-- Matrix invariant (R19): a step that is neither INIT nor a reset leaves every matrix word but the counter's alone, and
moves the counter only by SEEK, to one past the sought index, or by one for each NEXT that READ or XOR ran. The commands
do the same, an aborting XOR too, whose next state is the model's choice (log 3). -/
def Obligations.MatrixChangesOnlyItsCounter : Prop :=
  (∀ s t : State, step s = .next t → ¬ s.writesCommand .init → ¬ s.resetsNext →
    (∀ k : Fin 16, k ≠ 12 → k ≠ 13 → t.eng.m[k] = s.eng.m[k]) ∧
    (t.eng.ctr = s.eng.ctr ∨
      (s.writesCommand .seek ∧ t.eng.ctr = (s.eng.args.seekHi ++ s.eng.args.seekLo) + 1) ∨
      ((s.writesCommand .read ∨ s.writesCommand .xor) ∧
        t.eng.ctr = s.eng.ctr + BitVec.ofNat 64 (s.eng.refills t.eng.count.toNat)))) ∧
  ∀ (i : Instr) (s t : State), exec i s = .next t → i ≠ .init →
    (∀ k : Fin 16, k ≠ 12 → k ≠ 13 → t.eng.m[k] = s.eng.m[k]) ∧
    (t.eng.ctr = s.eng.ctr ∨
      (i = .seek ∧ t.eng.ctr = (s.eng.args.seekHi ++ s.eng.args.seekLo) + 1) ∨
      ((i = .read ∨ i = .xor) ∧ t.eng.ctr = s.eng.ctr + BitVec.ofNat 64 (s.eng.refills t.eng.count.toNat)))

/-- `exhausted` is cleared by SEEK, INIT or reset alone, and set only by SEEK, READ or XOR, with the counter then at 0
(R25, R79, R94). The commands keep to it, an aborting XOR too, whose next state is the model's choice (log 3). -/
def Obligations.ExhaustedIsClearedOnlyBySeekInitOrReset : Prop :=
  (∀ s t : State, step s = .next t →
    (s.eng.exhausted = true → t.eng.exhausted = false →
      s.writesCommand .seek ∨ s.writesCommand .init ∨ s.resetsNext) ∧
    (s.eng.exhausted = false → t.eng.exhausted = true →
      (s.writesCommand .seek ∨ s.writesCommand .read ∨ s.writesCommand .xor) ∧ t.eng.ctr = 0)) ∧
  ∀ (i : Instr) (s t : State), exec i s = .next t →
    (s.eng.exhausted = true → t.eng.exhausted = false → i = .seek ∨ i = .init) ∧
    (s.eng.exhausted = false → t.eng.exhausted = true → i ≠ .init ∧ t.eng.ctr = 0)

/-- A safe run of any length from a state that meets the invariant ends in a state whose last CMD write neither aborted
nor found the engine halted (R126, R127). What counts as a safe run is the model's choice (log 3). -/
def Obligations.SafeRunsReportNoAbort : Prop :=
  ∀ (n : Nat) (s : State), s.Inv → safeRun n s = true →
    ∃ t, Host.Core.run Sys2Proof.core n s = .next t ∧ State.Inv t ∧ t.eng.err ≠ .exhaustionAbort ∧
      t.eng.err ≠ .halted

/-! ### The host's accesses -/

/-- R110: what an aligned 32-bit register read returns, offset by offset, and that it changes nothing but the host's own
script position and list of readings. -/
def Obligations.RegisterReadReturnsItsTableValue : Prop :=
  ∀ (s : State) (off : BitVec 8) (rest : List HostOp), s.host.script = .read .word off :: rest → off.toNat % 4 = 0 →
    ∃ v : Word, step s = .next { s with host := { script := rest, position := s.host.position + 1,
                                                  readings := .register v :: s.host.readings } } ∧
      (off.toNat < 0x20 → v = 0) ∧ (off = 0x20 → v = s.eng.args.nonce0) ∧ (off = 0x24 → v = s.eng.args.nonce1) ∧
      (off = 0x28 → v = s.eng.args.rounds) ∧ (off = 0x2C → v = s.eng.args.seekLo) ∧
      (off = 0x30 → v = s.eng.args.seekHi) ∧ (off = 0x34 → v = s.eng.args.src) ∧
      (off = 0x38 → v = s.eng.args.dst) ∧ (off = 0x3C → v = s.eng.args.len) ∧ (off = 0x40 → v = 0) ∧
      (off = 0x44 → v = (s.eng.err.bits ++ 0b0000#4 ++ BitVec.ofBool s.eng.abort ++ BitVec.ofBool s.eng.eos ++
        BitVec.ofBool s.eng.exhausted ++ BitVec.ofBool s.eng.ready).setWidth 32) ∧
      (off = 0x48 → v = s.eng.count) ∧ (off = 0x4C → v = s.eng.m[12]) ∧ (off = 0x50 → v = s.eng.m[13]) ∧
      (off = 0x54 → v.toNat = s.eng.cursor.val) ∧ (0x58 ≤ off.toNat → v = 0)

/-- R34: the fields of STATUS, bit by bit: READY, EXHAUSTED, EOS, ABORT, four zeros, the 3-bit ERR code, zeros. -/
def Obligations.StatusFieldsStandWhereTheTableSays : Prop :=
  ∀ e : Engine,
    (e.readSlot .status).getLsbD 0 = e.ready ∧ (e.readSlot .status).getLsbD 1 = e.exhausted ∧
    (e.readSlot .status).getLsbD 2 = e.eos ∧ (e.readSlot .status).getLsbD 3 = e.abort ∧
    (e.readSlot .status).extractLsb' 4 4 = 0 ∧ (e.readSlot .status).extractLsb' 8 3 = e.err.bits ∧
    (e.readSlot .status).extractLsb' 11 21 = 0 ∧
    ErrCode.bits .ok = 0 ∧ ErrCode.bits .illegalCmd = 1 ∧ ErrCode.bits .notInit = 2 ∧ ErrCode.bits .badRounds = 3 ∧
    ErrCode.bits .range = 4 ∧ ErrCode.bits .halted = 5 ∧ ErrCode.bits .exhaustionAbort = 6

/-- R111: an aligned 32-bit write to an argument register (offsets 0x00..0x3C) stores the value there, whatever it is and
whether or not the engine is ready or halted, and changes nothing else. -/
def Obligations.ArgumentWriteStoresOnlyThere : Prop :=
  ∀ (s : State) (off : BitVec 8) (v : Word) (rest : List HostOp),
    s.host.script = .write .word off v :: rest → off.toNat % 4 = 0 → off.toNat < 0x40 →
    ∃ args, step s = .next { s with
        eng := { s.eng with args := args }
        host := { s.host with script := rest, position := s.host.position + 1 } } ∧
      (∀ r : Slot, args.get r = if r.offset = off then v else s.eng.args.get r)

/-- R113, R112: a write to STATUS, COUNT, CTR_LO, CTR_HI, CURSOR or a reserved offset changes nothing but the host's own
position; a read of KEY0..KEY7, CMD or a reserved offset returns 0. -/
def Obligations.ReadOnlyAndReservedWritesAreIgnored : Prop :=
  (∀ (s : State) (off : BitVec 8) (v : Word) (rest : List HostOp),
    s.host.script = .write .word off v :: rest → off.toNat % 4 = 0 → 0x44 ≤ off.toNat →
    step s = .next { s with host := { s.host with script := rest, position := s.host.position + 1 } }) ∧
  (∀ (s : State) (off : BitVec 8) (rest : List HostOp),
    s.host.script = .read .word off :: rest → off.toNat % 4 = 0 →
    (off.toNat < 0x20 ∨ off = 0x40 ∨ 0x58 ≤ off.toNat) →
    step s = .next { s with host := { script := rest, position := s.host.position + 1,
                                      readings := .register 0 :: s.host.readings } })

/-- R115: an access to the window that is not 32 bits wide or not at a multiple of 4 is a bus error, read or write, in
every state. -/
def Obligations.UnalignedOrNarrowAccessIsABusError : Prop :=
  ∀ (s : State) (width : AccessWidth) (off : BitVec 8) (v : Word) (rest : List HostOp),
    (width ≠ .word ∨ off.toNat % 4 ≠ 0) →
    (s.host.script = .write width off v :: rest ∨ s.host.script = .read width off :: rest) →
    step s = .fault .busError

/-- A host access by host address (R10, R50, R59) is the access at the offset or data memory address that REG_BASE, or the
host address of data memory byte 0, gives it; outside the window, or below data memory, it faults. The two bases as
fields, and the fault, are the model's choice (log 12). -/
def Obligations.BusAddressReachesItsOffset : Prop :=
  ∀ (s : State) (rest : List HostOp) (width : AccessWidth) (data : Word) (bytes : List Byte) (n : Nat),
    (∀ off : BitVec 8,
      (s.host.script = .busWrite width (s.cfg.regBase + off.toNat) data :: rest →
        step s = step { s with host := { s.host with script := .write width off data :: rest } }) ∧
      (s.host.script = .busRead width (s.cfg.regBase + off.toNat) :: rest →
        step s = step { s with host := { s.host with script := .read width off :: rest } })) ∧
    (∀ addr, (addr < s.cfg.regBase ∨ s.cfg.regBase + 256 ≤ addr) →
      (s.host.script = .busWrite width addr data :: rest ∨ s.host.script = .busRead width addr :: rest) →
      step s = .fault .unmappedAddress) ∧
    (∀ a,
      (s.host.script = .busMemWrite (s.cfg.memBase + a) bytes :: rest →
        step s = step { s with host := { s.host with script := .memWrite a bytes :: rest } }) ∧
      (s.host.script = .busMemRead (s.cfg.memBase + a) n :: rest →
        step s = step { s with host := { s.host with script := .memRead a n :: rest } })) ∧
    (∀ addr, addr < s.cfg.memBase →
      (s.host.script = .busMemWrite addr bytes :: rest ∨ s.host.script = .busMemRead addr n :: rest) →
      step s = .fault .unmappedAddress)

/-- The key cannot be observed: two engines that differ in the KEY registers, the matrix words other than the counter's,
the output buffer and the round count give the host the same value at every register, by offset or by host address (R136,
R113, R28). -/
def Obligations.KeyMaterialIsNotReadable : Prop :=
  ∀ (s : State) (e : Engine) (width : AccessWidth) (off : BitVec 8) (addr : Nat) (rest : List HostOp) (t t' : State),
    (s.host.script = .read width off :: rest ∨ s.host.script = .busRead width addr :: rest) →
    e.args = { s.eng.args with key := e.args.key } → e.m[12] = s.eng.m[12] → e.m[13] = s.eng.m[13] →
    e.cursor = s.eng.cursor → e.exhausted = s.eng.exhausted → e.ready = s.eng.ready → e.abort = s.eng.abort →
    e.eos = s.eng.eos → e.err = s.eng.err → e.count = s.eng.count →
    step s = .next t → step { s with eng := e } = .next t' → t'.host = t.host

/-- The host's data memory accesses (R117, R41): bytes written by `mw` are the bytes a following `mr` of the same range
reads; the engine is untouched, every other address reads as before, and no free byte is drawn. -/
def Obligations.HostReadsBackWhatItWrote : Prop :=
  ∀ (s : State) (a : Nat) (bytes : List Byte) (rest : List HostOp),
    s.host.script = .memWrite a bytes :: .memRead a bytes.length :: rest →
    (bytes.length = 0 ∨ a + bytes.length ≤ s.cfg.memSize) →
    ∃ t u, step s = .next t ∧ step t = .next u ∧ u.eng = s.eng ∧ u.cfg = s.cfg ∧ u.draws = s.draws ∧
      u.host = { script := rest, position := s.host.position + 2, readings := .memory bytes :: s.host.readings } ∧
      (∀ j (h : j < bytes.length), Memory.lookup u.mem (a + j) = some bytes[j]) ∧
      ∀ x, ¬ (a ≤ x ∧ x < a + bytes.length) → Memory.lookup u.mem x = Memory.lookup s.mem x

/-- A data memory access of the host outside 0..MEM_SIZE-1 faults: the addresses do not exist (R40); the fault is the
model's own (log 8). -/
def Obligations.HostAccessOutsideDataMemoryFaults : Prop :=
  ∀ (s : State) (a n : Nat) (bytes : List Byte) (rest : List HostOp), n ≠ 0 → s.cfg.memSize < a + n →
    bytes.length = n → (s.host.script = .memWrite a bytes :: rest ∨ s.host.script = .memRead a n :: rest) →
    step s = .fault .memoryOutOfRange

/-- The pseudo-operation `init K, N, r` (R67) run by the host: twelve steps, after which the matrix holds the key and
nonce bytes as little-endian words in ascending order (R16, R18, R58) and the engine is ready. -/
def Obligations.InitPseudoOperationLoadsKeyAndNonce : Prop :=
  ∀ (s : State) (key : Vector Byte 32) (nonce : Vector Byte 8) (rounds : Word) (rest : List HostOp),
    s.eng.abort = false → rounds ≠ 0 → rounds.toNat % 2 = 0 →
    s.host.script = initOps key nonce rounds ++ rest →
    ∃ t : State, Host.Core.run Sys2Proof.core 12 s = .next t ∧ t.host.script = rest ∧ t.mem = s.mem ∧
      t.eng.ready = true ∧ t.eng.err = .ok ∧ t.eng.roundCount = rounds ∧ t.eng.ctr = 0 ∧
      (∀ i : Fin 8, t.eng.m[4 + i.val]'(by omega) =
        le32 key[4 * i.val] key[4 * i.val + 1] key[4 * i.val + 2] key[4 * i.val + 3]) ∧
      t.eng.m[14] = le32 nonce[0] nonce[1] nonce[2] nonce[3] ∧
      t.eng.m[15] = le32 nonce[4] nonce[5] nonce[6] nonce[7]
end

