-- ==== Sys2Proof/Laws/Engine.lean ====
section
/-! SUPPORT. The counter, NEXT and KSBYTE: what each can do, said once. -/

namespace Sys2Proof.Machine

/-- The cursor of an empty buffer (R22). -/
@[simp] theorem cursor_full : (64 : Fin 65).val = 64 := rfl

/-! ### The counter words -/

theorem Matrix.withCtr_getElem_12 (m : Matrix) (c : BitVec 64) :
    (Matrix.withCtr m c)[12] = c.extractLsb' 0 32 := by
  simp [Matrix.withCtr]

theorem Matrix.withCtr_getElem_13 (m : Matrix) (c : BitVec 64) :
    (Matrix.withCtr m c)[13] = c.extractLsb' 32 32 := by
  simp [Matrix.withCtr]

/-- A 64-bit value is its high half and its low half. -/
theorem append_halves (c : BitVec 64) : c.extractLsb' 32 32 ++ c.extractLsb' 0 32 = c := by
  apply BitVec.eq_of_getLsbD_eq
  intro i hi
  simp only [BitVec.getLsbD_append, BitVec.getLsbD_extractLsb']
  split
  · simp [*]
  · have h1 : i - 32 < 32 := by omega
    have h2 : 32 + (i - 32) = i := by omega
    simp [h1, h2]

/-- The low half of a counter is its second word. -/
theorem extract_low (a b : Word) : (a ++ b : BitVec 64).extractLsb' 0 32 = b :=
  BitVec.extractLsb'_append_eq_right

/-- The high half of a counter is its first word. -/
theorem extract_high (a b : Word) : (a ++ b : BitVec 64).extractLsb' 32 32 = a :=
  BitVec.extractLsb'_append_eq_left

@[simp] theorem Matrix.ctr_withCtr (m : Matrix) (c : BitVec 64) : Matrix.ctr (Matrix.withCtr m c) = c := by
  unfold Matrix.ctr
  rw [Matrix.withCtr_getElem_12, Matrix.withCtr_getElem_13]
  exact append_halves c

theorem Matrix.withCtr_getElem_other (m : Matrix) (c : BitVec 64) (i : Nat) (h : i < 16) (h12 : i ≠ 12) (h13 : i ≠ 13) :
    (Matrix.withCtr m c)[i] = m[i] := by
  simp only [Matrix.withCtr]
  rw [Vector.getElem_set_ne _ _ (Ne.symm h13), Vector.getElem_set_ne _ _ (Ne.symm h12)]

/-- A matrix is its words other than 12 and 13, and its counter. -/
theorem Matrix.ext_ctr {m m' : Matrix} (hc : Matrix.ctr m = Matrix.ctr m')
    (h : ∀ i (hi : i < 16), i ≠ 12 → i ≠ 13 → m[i] = m'[i]) : m = m' := by
  apply Vector.ext
  intro i hi
  have h12 : m[12] = m'[12] := by
    have := congrArg (BitVec.extractLsb' 0 32) hc
    simpa only [Matrix.ctr, extract_low] using this
  have h13 : m[13] = m'[13] := by
    have := congrArg (BitVec.extractLsb' 32 32) hc
    simpa only [Matrix.ctr, extract_high] using this
  by_cases h1 : i = 12
  · subst h1; exact h12
  · by_cases h2 : i = 13
    · subst h2; exact h13
    · exact h i hi h1 h2

@[simp] theorem Matrix.withCtr_withCtr (m : Matrix) (c d : BitVec 64) :
    Matrix.withCtr (Matrix.withCtr m c) d = Matrix.withCtr m d :=
  Matrix.ext_ctr (by simp) fun i hi h12 h13 => by
    rw [Matrix.withCtr_getElem_other _ _ i hi h12 h13, Matrix.withCtr_getElem_other _ _ i hi h12 h13,
      Matrix.withCtr_getElem_other _ _ i hi h12 h13]

@[simp] theorem Matrix.withCtr_ctr (m : Matrix) : Matrix.withCtr m (Matrix.ctr m) = m :=
  Matrix.ext_ctr (by simp) fun i hi h12 h13 => Matrix.withCtr_getElem_other _ _ i hi h12 h13

/-! ### NEXT and KSBYTE -/

theorem Engine.next_exhausted {e : Engine} (h : e.exhausted = true) : e.next = none := by
  simp [Engine.next, h]

theorem Engine.next_ready {e : Engine} (h : e.exhausted = false) :
    e.next = some { e with
      m := Matrix.withCtr e.m (e.ctr + 1)
      outbuf := serialise (block e.m e.roundCount)
      cursor := 0
      exhausted := ctrWrapped (e.ctr + 1) } := by
  simp [Engine.next, h, Engine.ctrInc, Engine.ctr]

theorem Engine.blockBytes_withCtr (e : Engine) (c n : BitVec 64) :
    Engine.blockBytes { e with m := Matrix.withCtr e.m c } n = e.blockBytes n := by
  simp [Engine.blockBytes]

theorem Engine.blockBytes_ctr (e : Engine) : e.blockBytes e.ctr = serialise (block e.m e.roundCount) := by
  simp [Engine.blockBytes, Engine.ctr]

/-- KSBYTE with a byte left in the buffer (R81). -/
theorem Engine.ksByte_buffered {e : Engine} (h : e.cursor.val < 64) :
    e.ksByte = some (e.outbuf[e.cursor.val], { e with cursor := ⟨e.cursor.val + 1, by omega⟩ }) := by
  simp [Engine.ksByte, h]

/-- KSBYTE with an empty buffer and a counter that has not wrapped: NEXT runs (R81). -/
theorem Engine.ksByte_refill {e : Engine} (hc : e.cursor.val = 64) (h : e.exhausted = false) :
    e.ksByte = some ((serialise (block e.m e.roundCount))[0], { e with
      m := Matrix.withCtr e.m (e.ctr + 1)
      outbuf := serialise (block e.m e.roundCount)
      cursor := 1
      exhausted := ctrWrapped (e.ctr + 1) }) := by
  simp [Engine.ksByte, hc, Engine.next_ready h]

/-- KSBYTE at the end of the stream (R81). -/
theorem Engine.ksByte_exhausted {e : Engine} (hc : e.cursor.val = 64) (h : e.exhausted = true) : e.ksByte = none := by
  simp [Engine.ksByte, hc, Engine.next_exhausted h]

/-- KSBYTE fails exactly when no byte is left. -/
theorem Engine.ksByte_eq_none_iff (e : Engine) : e.ksByte = none ↔ e.bytesLeft = 0 := by
  have hlt := e.ctr.isLt
  by_cases hc : e.cursor.val < 64
  · simp only [Engine.ksByte_buffered hc, Engine.bytesLeft]
    constructor
    · intro h; cases h
    · omega
  · have hc : e.cursor.val = 64 := by omega
    cases h : e.exhausted
    · simp only [Engine.ksByte_refill hc h, Engine.bytesLeft, h]
      constructor
      · intro h; cases h
      · simp only [Bool.false_eq_true, ↓reduceIte]; omega
    · simp [Engine.ksByte_exhausted hc h, Engine.bytesLeft, h, hc]

/-- Two engines are equal when their fields are. -/
theorem Engine.ext_fields {e f : Engine} (hm : e.m = f.m) (ho : e.outbuf = f.outbuf) (hc : e.cursor = f.cursor)
    (hr : e.roundCount = f.roundCount) (hx : e.exhausted = f.exhausted) (hy : e.ready = f.ready)
    (ha : e.abort = f.abort) (hs : e.eos = f.eos) (he : e.err = f.err) (hn : e.count = f.count)
    (hg : e.args = f.args) : e = f := by
  cases e; cases f; simp_all

theorem Engine.afterBytes_zero (e : Engine) : e.afterBytes 0 = e := by
  have h0 : e.refills 0 = 0 := by simp only [Engine.refills]; omega
  apply Engine.ext_fields <;> simp [Engine.afterBytes, h0, Engine.ctr]

/-- The increment wraps exactly at 2^64 - 1 (R79). -/
theorem ctrWrapped_succ (c : BitVec 64) : ctrWrapped (c + 1) = (c.toNat + 1 == 2 ^ 64) := by
  have hlt := c.isLt
  have h2 : (c + 1).toNat = (c.toNat + 1) % 2 ^ 64 := by simp [BitVec.toNat_add]
  rw [Bool.eq_iff_iff]
  simp only [ctrWrapped, beq_iff_eq, ← BitVec.toNat_inj, h2]
  simp only [BitVec.ofNat_eq_ofNat, BitVec.toNat_ofNat]
  omega

/-- What KSBYTE serves: the next byte of the stream, leaving the stream one byte shorter. -/
theorem Engine.ksByte_some {e e' : Engine} {b : Byte} (h : e.ksByte = some (b, e')) :
    b = e.upcomingByte 0 ∧ e' = e.afterBytes 1 ∧ e'.bytesLeft + 1 = e.bytesLeft := by
  have hlt := e.ctr.isLt
  by_cases hc : e.cursor.val < 64
  · have h1 : e.refills 1 = 0 := by simp only [Engine.refills]; omega
    rw [Engine.ksByte_buffered hc] at h
    obtain ⟨rfl, rfl⟩ := Prod.mk.inj (Option.some.inj h)
    refine ⟨by simp [Engine.upcomingByte, hc], ?_, ?_⟩
    · apply Engine.ext_fields <;> simp [Engine.afterBytes, h1, Engine.ctr]
    · simp only [Engine.bytesLeft, Engine.ctr] at *
      split <;> omega
  · have hc : e.cursor.val = 64 := by omega
    have h1 : e.refills 1 = 1 := by simp only [Engine.refills]; omega
    cases hx : e.exhausted
    · rw [Engine.ksByte_refill hc hx] at h
      obtain ⟨rfl, rfl⟩ := Prod.mk.inj (Option.some.inj h)
      have hw := ctrWrapped_succ e.ctr
      refine ⟨by simp [Engine.upcomingByte, hc, Engine.blockBytes_ctr], ?_, ?_⟩
      · apply Engine.ext_fields <;>
          simp only [Engine.afterBytes, h1, hc, hx, hw, ← Engine.blockBytes_ctr] <;> simp [BitVec.add_sub_cancel]
      · simp only [Engine.bytesLeft, Engine.ctr, Matrix.ctr_withCtr, hx, Bool.false_eq_true, ↓reduceIte, hc]
        simp only [Engine.ctr] at hw hlt
        have h2 : (Matrix.ctr e.m + 1).toNat = ((Matrix.ctr e.m).toNat + 1) % 2 ^ 64 := by
          simp [BitVec.toNat_add]
        simp only [hw, beq_iff_eq, h2]
        split <;> simp <;> omega
    · rw [Engine.ksByte_exhausted hc hx] at h
      cases h

/-! ### Serving several bytes -/

@[simp] theorem Engine.afterBytes_ctr (e : Engine) (c : Nat) :
    (e.afterBytes c).ctr = e.ctr + BitVec.ofNat 64 (e.refills c) := by
  simp [Engine.afterBytes, Engine.ctr]

@[simp] theorem Engine.afterBytes_cursor (e : Engine) (c : Nat) :
    (e.afterBytes c).cursor.val = e.cursor.val + c - 64 * e.refills c := rfl

@[simp] theorem Engine.afterBytes_blockBytes (e : Engine) (c : Nat) (n : BitVec 64) :
    (e.afterBytes c).blockBytes n = e.blockBytes n := by
  simp [Engine.afterBytes, Engine.blockBytes]

@[simp] theorem Engine.afterBytes_roundCount (e : Engine) (c : Nat) : (e.afterBytes c).roundCount = e.roundCount := rfl
@[simp] theorem Engine.afterBytes_ready (e : Engine) (c : Nat) : (e.afterBytes c).ready = e.ready := rfl
@[simp] theorem Engine.afterBytes_abort (e : Engine) (c : Nat) : (e.afterBytes c).abort = e.abort := rfl
@[simp] theorem Engine.afterBytes_eos (e : Engine) (c : Nat) : (e.afterBytes c).eos = e.eos := rfl
@[simp] theorem Engine.afterBytes_err (e : Engine) (c : Nat) : (e.afterBytes c).err = e.err := rfl
@[simp] theorem Engine.afterBytes_count (e : Engine) (c : Nat) : (e.afterBytes c).count = e.count := rfl
@[simp] theorem Engine.afterBytes_args (e : Engine) (c : Nat) : (e.afterBytes c).args = e.args := rfl

/-- Serving bytes leaves every matrix word but the counter's alone (R19). -/
theorem Engine.afterBytes_m_other (e : Engine) (c i : Nat) (h : i < 16) (h12 : i ≠ 12) (h13 : i ≠ 13) :
    (e.afterBytes c).m[i] = e.m[i] := Matrix.withCtr_getElem_other _ _ i h h12 h13

@[simp] theorem Engine.afterBytes_exhausted (e : Engine) (c : Nat) :
    (e.afterBytes c).exhausted = (e.exhausted || (e.refills c != 0 && e.ctr.toNat + e.refills c == 2 ^ 64)) := rfl

/-- Refills add up. -/
theorem Engine.refills_add (e : Engine) (c d : Nat) :
    e.refills (c + d) = e.refills c + (e.afterBytes c).refills d := by
  have := e.cursor.isLt
  simp only [Engine.refills, Engine.afterBytes_cursor]
  omega

/-- `c` more bytes need no more refills than there are blocks. -/
theorem Engine.refills_le (e : Engine) (c : Nat) (h : c ≤ e.bytesLeft) :
    if e.exhausted then e.refills c = 0 else e.ctr.toNat + e.refills c ≤ 2 ^ 64 := by
  have := e.cursor.isLt
  have := e.ctr.isLt
  cases hx : e.exhausted <;> simp only [Engine.bytesLeft, hx, Bool.false_eq_true, ↓reduceIte] at h ⊢ <;>
    simp only [Engine.refills] <;> omega

theorem Engine.upcomingByte_afterBytes (e : Engine) (c j : Nat) :
    (e.afterBytes c).upcomingByte j = e.upcomingByte (c + j) := by
  have hcur := e.cursor.isLt
  have hr : e.refills c = (e.cursor.val + c - 1) / 64 := rfl
  unfold Engine.upcomingByte
  by_cases h0 : e.refills c = 0
  · have hout : (e.afterBytes c).outbuf = e.outbuf := by simp [Engine.afterBytes, h0]
    simp only [Engine.afterBytes_cursor, Engine.afterBytes_blockBytes, Engine.afterBytes_ctr, h0, hout]
    simp [Nat.add_assoc]
  · have hout : (e.afterBytes c).outbuf = e.blockBytes (e.ctr + BitVec.ofNat 64 (e.refills c) - 1) := by
      simp [Engine.afterBytes, h0]
    simp only [Engine.afterBytes_cursor, Engine.afterBytes_blockBytes, Engine.afterBytes_ctr, hout]
    have hge : ¬ e.cursor.val + (c + j) < 64 := by omega
    rw [dif_neg hge]
    by_cases hlt : e.cursor.val + c - 64 * e.refills c + j < 64
    · rw [dif_pos hlt]
      have hq : (e.cursor.val + (c + j) - 64) / 64 = e.refills c - 1 := by omega
      have hm : (e.cursor.val + (c + j)) % 64 = e.cursor.val + c - 64 * e.refills c + j := by omega
      have hb : e.ctr + BitVec.ofNat 64 (e.refills c) - 1 = e.ctr + BitVec.ofNat 64 (e.refills c - 1) := by
        obtain ⟨k, hk⟩ := Nat.exists_eq_succ_of_ne_zero h0
        simp [hk, BitVec.ofNat_add, ← BitVec.add_assoc, BitVec.add_sub_cancel]
      simp only [hq, hm, hb]
    · rw [dif_neg hlt]
      have hq : (e.cursor.val + (c + j) - 64) / 64 =
          e.refills c + (e.cursor.val + c - 64 * e.refills c + j - 64) / 64 := by omega
      have hm : (e.cursor.val + (c + j)) % 64 = (e.cursor.val + c - 64 * e.refills c + j) % 64 := by omega
      simp only [hq, hm, BitVec.ofNat_add, BitVec.add_assoc]

/-- Serving `c` bytes leaves `c` fewer. -/
theorem Engine.bytesLeft_afterBytes (e : Engine) (c : Nat) (h : c ≤ e.bytesLeft) :
    (e.afterBytes c).bytesLeft = e.bytesLeft - c := by
  have hcur := e.cursor.isLt
  have hlt := e.ctr.isLt
  have hr : e.refills c = (e.cursor.val + c - 1) / 64 := rfl
  have hle := e.refills_le c h
  have hctr : (e.afterBytes c).ctr.toNat = (e.ctr.toNat + e.refills c) % 2 ^ 64 := by
    simp [BitVec.toNat_add]
  cases hx : e.exhausted
  · simp only [hx, Bool.false_eq_true, ↓reduceIte] at hle
    simp only [Engine.bytesLeft, hx, Engine.afterBytes_cursor, Engine.afterBytes_exhausted, hctr, Bool.false_or,
      Bool.false_eq_true, ↓reduceIte, Bool.and_eq_true, bne_iff_ne, ne_eq, beq_iff_eq] at h ⊢
    split <;> omega
  · simp only [hx, ↓reduceIte] at hle
    simp only [Engine.bytesLeft, hx, Engine.afterBytes_cursor, Engine.afterBytes_exhausted, Bool.true_or,
      ↓reduceIte] at h ⊢
    omega

/-- Serving `c` bytes and then `d` more is serving `c + d`. -/
theorem Engine.afterBytes_add (e : Engine) (c d : Nat) (h : c + d ≤ e.bytesLeft) :
    (e.afterBytes c).afterBytes d = e.afterBytes (c + d) := by
  have hlt := e.ctr.isLt
  have hadd := e.refills_add c d
  have hle := e.refills_le (c + d) h
  have hctr : (e.afterBytes c).ctr.toNat = (e.ctr.toNat + e.refills c) % 2 ^ 64 := by
    simp [BitVec.toNat_add]
  apply Engine.ext_fields <;> try rfl
  · simp only [Engine.afterBytes, hadd, Engine.ctr, Matrix.ctr_withCtr, Matrix.withCtr_withCtr]
    simp only [Engine.refills, BitVec.ofNat_add, BitVec.add_assoc]
  · show (if (e.afterBytes c).refills d = 0 then (e.afterBytes c).outbuf else _) =
      if e.refills (c + d) = 0 then e.outbuf else _
    by_cases h0 : (e.afterBytes c).refills d = 0
    · have hout : (e.afterBytes c).outbuf =
          if e.refills c = 0 then e.outbuf else e.blockBytes (e.ctr + BitVec.ofNat 64 (e.refills c) - 1) := rfl
      simp only [hadd, h0, ↓reduceIte, hout, Nat.add_zero]
    · have h1 : ¬ (e.refills c + (e.afterBytes c).refills d = 0) := by omega
      rw [hadd]
      simp only [h0, h1, ↓reduceIte, Engine.afterBytes_blockBytes, Engine.afterBytes_ctr, BitVec.ofNat_add,
        BitVec.add_assoc]
  · apply Fin.ext
    simp only [Engine.afterBytes_cursor, hadd]
    have := e.cursor.isLt
    have hr : e.refills c = (e.cursor.val + c - 1) / 64 := rfl
    omega
  · rw [Engine.afterBytes_exhausted, Engine.afterBytes_exhausted, Engine.afterBytes_exhausted, hctr, hadd]
    cases hx : e.exhausted
    · simp only [hx, Bool.false_eq_true, ↓reduceIte] at hle
      rw [Bool.eq_iff_iff]
      simp only [Bool.false_or, Bool.or_eq_true, Bool.and_eq_true, bne_iff_ne, ne_eq, beq_iff_eq]
      omega
    · simp

/-- The whole rest of the stream: the buffer empty and the counter wrapped. -/
theorem Engine.afterBytes_all (e : Engine) :
    (e.afterBytes e.bytesLeft).cursor.val = 64 ∧ (e.afterBytes e.bytesLeft).exhausted = true := by
  have h := e.bytesLeft_afterBytes e.bytesLeft (Nat.le_refl _)
  rw [Nat.sub_self, ← Engine.ksByte_eq_none_iff] at h
  rcases Nat.lt_or_ge (e.afterBytes e.bytesLeft).cursor.val 64 with hc | hc
  · rw [Engine.ksByte_buffered hc] at h
    cases h
  · have hc : (e.afterBytes e.bytesLeft).cursor.val = 64 := by
      have := (e.afterBytes e.bytesLeft).cursor.isLt
      omega
    refine ⟨hc, ?_⟩
    cases hx : (e.afterBytes e.bytesLeft).exhausted
    · rw [Engine.ksByte_refill hc hx] at h
      cases h
    · rfl

end Sys2Proof.Machine
end

