-- ==== Sys2Proof/Laws/Block.lean ====
section
/-! SUPPORT. The block function's parts: rotation, quarter-round, serialisation, and the matrix INIT builds. -/

namespace Sys2Proof.Machine

/-- `rotl32` is the rotation of a 32-bit vector (R11). -/
theorem rotl32_eq_rotateLeft (v : Word) (n : Nat) (h : n < 32) : rotl32 v n = v.rotateLeft n := by
  rw [BitVec.rotateLeft_def, rotl32, Nat.mod_eq_of_lt h]

/-- A quarter-round leaves the words outside its four indices alone (R71). -/
theorem quarterRound_other (a b c d : Fin 16) (x : Matrix) (i : Nat) (hi : i < 16) (ha : i ≠ a.val) (hb : i ≠ b.val)
    (hc : i ≠ c.val) (hd : i ≠ d.val) : (quarterRound a b c d x)[i] = x[i] := by
  simp [quarterRound, ha.symm, hb.symm, hc.symm, hd.symm]

/-- What a quarter-round writes depends on its four words alone (R71). -/
theorem quarterRound_congr (a b c d : Fin 16) {y z : Matrix} (ha : y[a] = z[a]) (hb : y[b] = z[b]) (hc : y[c] = z[c])
    (hd : y[d] = z[d]) (i : Nat) (hi : i < 16) (h : i = a.val ∨ i = b.val ∨ i = c.val ∨ i = d.val) :
    (quarterRound a b c d y)[i] = (quarterRound a b c d z)[i] := by
  simp only [quarterRound, ha, hb, hc, hd, Vector.getElem_set]
  repeat' split
  all_goals first | rfl | omega

/-- One more double round may be run last instead of first. -/
theorem doubleRounds_succ (n : Nat) (x : Matrix) : doubleRounds (n + 1) x = doubleRound (doubleRounds n x) := by
  induction n generalizing x with
  | zero => rfl
  | succ n ih => exact ih (doubleRound x)

/-- Byte `4i + k` of a serialised block is byte `k` of word `i` (R78). -/
theorem serialise_getElem (y : Matrix) (i k : Nat) (hi : i < 16) (hk : k < 4) :
    (serialise y)[4 * i + k]'(by omega) = byteOf y[i] k := by
  have h1 : (4 * i + k) / 4 = i := by omega
  have h2 : (4 * i + k) % 4 = k := by omega
  simp only [serialise, Vector.getElem_ofFn, h1, h2]

/-- The counter of the matrix INIT builds is 0 (R91). -/
@[simp] theorem ArgRegs.initMatrix_ctr (a : ArgRegs) : Matrix.ctr a.initMatrix = 0 := by
  have h12 : a.initMatrix[12] = 0 := rfl
  have h13 : a.initMatrix[13] = 0 := rfl
  rw [Matrix.ctr, h12, h13]
  rfl

/-- With an empty buffer the stream goes on with block `ctr` (R81). -/
theorem Engine.upcomingByte_empty (e : Engine) (hc : e.cursor.val = 64) (j : Nat) :
    e.upcomingByte j =
      (e.blockBytes (e.ctr + BitVec.ofNat 64 (j / 64)))[j % 64]'(Nat.mod_lt _ (by decide)) := by
  have h1 : (e.cursor.val + j - 64) / 64 = j / 64 := by omega
  have h2 : (e.cursor.val + j) % 64 = j % 64 := by omega
  unfold Engine.upcomingByte
  rw [dif_neg (by omega)]
  simp only [h1, h2]

end Sys2Proof.Machine
end

