-- ==== Sys2Proof/Laws/Memory.lean ====
section
/-! SUPPORT. Data memory: a read after a write, what a write leaves alone, and that every operation keeps the
canonical form. -/

namespace Sys2Proof.Machine

theorem Memory.lookup_store_same (mem : Memory) (a : Nat) (v : Byte) :
    Memory.lookup (Memory.store mem a v) a = some v := by
  induction mem with
  | nil => simp [Memory.store, Memory.lookup]
  | cons c rest ih =>
    obtain ⟨b, w⟩ := c
    simp only [Memory.store]
    split
    · simp [Memory.lookup]
    · split
      · simp [Memory.lookup]
      · rename_i h
        simp [Memory.lookup, h, ih]

theorem Memory.lookup_store_other (mem : Memory) {a x : Nat} (v : Byte) (h : x ≠ a) :
    Memory.lookup (Memory.store mem a v) x = Memory.lookup mem x := by
  induction mem with
  | nil => simp [Memory.store, Memory.lookup, h]
  | cons c rest ih =>
    obtain ⟨b, w⟩ := c
    simp only [Memory.store]
    split
    · simp [Memory.lookup, h]
    · split
      · rename_i hab
        subst hab
        simp [Memory.lookup, h]
      · simp [Memory.lookup, ih]

/-- One equation for both cases. -/
theorem Memory.lookup_store (mem : Memory) (a x : Nat) (v : Byte) :
    Memory.lookup (Memory.store mem a v) x = if x = a then some v else Memory.lookup mem x := by
  split
  · rename_i h
    rw [h, Memory.lookup_store_same]
  · rename_i h
    exact Memory.lookup_store_other mem v h

/-- `lo` is below every listed address. -/
def Memory.above (lo : Nat) (mem : Memory) : Prop := ∀ c ∈ mem, lo < c.1

theorem Memory.wf_cons {c : Host.Cell} {mem : Memory} :
    Memory.wf (c :: mem) = true ↔ Memory.above c.1 mem ∧ Memory.wf mem = true := by
  induction mem generalizing c with
  | nil => simp [Memory.wf, Memory.above]
  | cons d rest ih =>
    simp only [Memory.wf, Bool.and_eq_true, decide_eq_true_eq, Memory.above, List.mem_cons, forall_eq_or_imp]
    constructor
    · rintro ⟨hcd, hw⟩
      refine ⟨⟨hcd, fun x hx => ?_⟩, hw⟩
      have := (ih.1 hw).1 x hx
      omega
    · rintro ⟨⟨hcd, _⟩, hw⟩
      exact ⟨hcd, hw⟩

theorem Memory.mem_store {mem : Memory} {a : Nat} {v : Byte} {c : Host.Cell} (h : c ∈ Memory.store mem a v) :
    c = (a, v) ∨ c ∈ mem := by
  induction mem with
  | nil => simpa [Memory.store] using h
  | cons d rest ih =>
    obtain ⟨b, w⟩ := d
    simp only [Memory.store] at h
    split at h
    · simpa using h
    · split at h
      · rcases List.mem_cons.1 h with h | h
        · exact .inl h
        · exact .inr (List.mem_cons_of_mem _ h)
      · rcases List.mem_cons.1 h with h | h
        · exact .inr (h ▸ List.mem_cons_self)
        · rcases ih h with h | h
          · exact .inl h
          · exact .inr (List.mem_cons_of_mem _ h)

theorem Memory.wf_store {mem : Memory} (a : Nat) (v : Byte) (h : Memory.wf mem = true) :
    Memory.wf (Memory.store mem a v) = true := by
  induction mem with
  | nil => rfl
  | cons d rest ih =>
    obtain ⟨b, w⟩ := d
    obtain ⟨hlo, hw⟩ := Memory.wf_cons.1 h
    simp only [Memory.store]
    split
    · rename_i hab
      refine Memory.wf_cons.2 ⟨?_, h⟩
      intro c hc
      rcases List.mem_cons.1 hc with rfl | hc
      · exact hab
      · have := hlo c hc
        simp only at this
        omega
    · split
      · rename_i hab
        subst hab
        exact Memory.wf_cons.2 ⟨hlo, hw⟩
      · refine Memory.wf_cons.2 ⟨?_, ih hw⟩
        intro c hc
        rcases Memory.mem_store hc with rfl | hc
        · simp only
          omega
        · exact hlo c hc

theorem Memory.wf_forget {mem : Memory} (a n : Nat) (h : Memory.wf mem = true) :
    Memory.wf (Memory.forget mem a n) = true := by
  induction mem with
  | nil => rfl
  | cons d rest ih =>
    obtain ⟨hlo, hw⟩ := Memory.wf_cons.1 h
    simp only [Memory.forget, List.filter_cons]
    split
    · refine Memory.wf_cons.2 ⟨?_, ih hw⟩
      intro c hc
      exact hlo c ((List.mem_filter.1 hc).1)
    · exact ih hw

theorem Memory.lookup_forget (mem : Memory) (a n x : Nat) :
    Memory.lookup (Memory.forget mem a n) x = if a ≤ x ∧ x < a + n then none else Memory.lookup mem x := by
  induction mem with
  | nil => simp [Memory.forget, Memory.lookup]
  | cons d rest ih =>
    obtain ⟨b, w⟩ := d
    simp only [Memory.forget, List.filter_cons] at ih ⊢
    by_cases hb : a ≤ b ∧ b < a + n
    · have hx : (x = b → a ≤ x ∧ x < a + n) := by rintro rfl; exact hb
      simp only [hb, decide_true, Bool.and_self, Bool.not_true, Bool.false_eq_true, ↓reduceIte, ih, Memory.lookup]
      by_cases hxb : x = b
      · simp [hx hxb]
      · simp [hxb]
    · have hb' : (!(decide (a ≤ b) && decide (b < a + n))) = true := by
        simp
        omega
      simp only [hb', ↓reduceIte, Memory.lookup, ih]
      by_cases hxb : x = b
      · subst hxb
        simp [hb]
      · simp [hxb]

theorem Memory.mem_forget {mem : Memory} {a n : Nat} {c : Host.Cell} (h : c ∈ Memory.forget mem a n) : c ∈ mem :=
  (List.mem_filter.1 h).1

/-- What `MemRead` gives: the byte listed, or the next free byte (R41). -/
theorem State.memRead_cases (s : State) (a : Nat) :
    (∃ v, Memory.lookup s.mem a = some v ∧ s.memRead a = (v, s)) ∨
      (Memory.lookup s.mem a = none ∧
        s.memRead a = (Config.freeByte s.draws, { s with draws := s.draws + 1 })) := by
  unfold State.memRead
  cases h : Memory.lookup s.mem a with
  | none => exact .inr ⟨rfl, rfl⟩
  | some v => exact .inl ⟨v, rfl, rfl⟩

/-- `InRange` as R47 words it. -/
theorem Config.inRange_iff (c : Config) (a n : Nat) : Config.inRange c a n = true ↔ n = 0 ∨ a + n ≤ c.memSize := by
  simp [Config.inRange]

end Sys2Proof.Machine
end

