-- ==== Sys2Proof/Laws/Loops.lean ====
section
/-! SUPPORT. What the loops of READ and XOR do, each said once: how many bytes they serve, which engine they leave, and
every byte of data memory afterwards. -/

namespace Sys2Proof.Machine

/-- READ's loop for `n` bytes from address `a` up (R97). -/
theorem readLoop_spec (n a i : Nat) (s : State) :
    ∃ mem, readLoop n a i s =
        ({ s with eng := s.eng.afterBytes (min n s.eng.bytesLeft), mem := mem }, i + min n s.eng.bytesLeft,
          decide (s.eng.bytesLeft < n)) ∧
      (∀ x, Memory.lookup mem x =
        if a ≤ x ∧ x < a + min n s.eng.bytesLeft then some (s.eng.upcomingByte (x - a)) else Memory.lookup s.mem x) := by
  induction n generalizing a i s with
  | zero =>
    refine ⟨s.mem, ?_, ?_⟩
    · simp [readLoop, Engine.afterBytes_zero]
    · intro x
      have : ¬ (a ≤ x ∧ x < a + min 0 s.eng.bytesLeft) := by omega
      rw [if_neg this]
  | succ n ih =>
    cases hk : s.eng.ksByte with
    | none =>
      have h0 := (Engine.ksByte_eq_none_iff s.eng).1 hk
      refine ⟨s.mem, ?_, ?_⟩
      · simp [readLoop, hk, h0, Engine.afterBytes_zero]
      · intro x
        have : ¬ (a ≤ x ∧ x < a + min (n + 1) s.eng.bytesLeft) := by omega
        rw [if_neg this]
    | some p =>
      obtain ⟨b, e⟩ := p
      obtain ⟨hb, he, hleft⟩ := Engine.ksByte_some hk
      obtain ⟨mem, hrun, hmem⟩ := ih (a + 1) (i + 1) (State.memWrite { s with eng := e } a b)
      have hmin : min (n + 1) s.eng.bytesLeft = 1 + min n e.bytesLeft := by omega
      have hadd : e.afterBytes (min n e.bytesLeft) = s.eng.afterBytes (1 + min n e.bytesLeft) := by
        rw [he, Engine.afterBytes_add _ _ _ (by rw [← he]; omega)]
      refine ⟨mem, ?_, ?_⟩
      · simp only [readLoop, hk, hrun]
        simp only [State.memWrite, hmin, hadd]
        congr 2
        · omega
        · congr 1
          rw [eq_iff_iff]
          omega
      · intro x
        rw [hmem x]
        simp only [State.memWrite, hmin, Memory.lookup_store]
        by_cases hx : x = a
        · subst hx
          have h1 : ¬ (x + 1 ≤ x ∧ x < x + 1 + min n e.bytesLeft) := by omega
          have h2 : x ≤ x ∧ x < x + (1 + min n e.bytesLeft) := by omega
          rw [if_neg h1, if_pos h2]
          simp [hb]
        · by_cases hin : a + 1 ≤ x ∧ x < a + 1 + min n e.bytesLeft
          · have h2 : a ≤ x ∧ x < a + (1 + min n e.bytesLeft) := by omega
            rw [if_pos hin, if_pos h2, he, Engine.upcomingByte_afterBytes]
            congr 2
            omega
          · have h2 : ¬ (a ≤ x ∧ x < a + (1 + min n e.bytesLeft)) := by omega
            rw [if_neg hin, if_neg h2, if_neg hx]

/-- READ's loop keeps memory canonical and inside the addresses it was given. -/
theorem readLoop_memory (n a i top : Nat) (s : State) (hw : Memory.wf s.mem = true) (ht : ∀ c ∈ s.mem, c.1 < top)
    (hr : n = 0 ∨ a + n ≤ top) :
    Memory.wf (readLoop n a i s).1.mem = true ∧ ∀ c ∈ (readLoop n a i s).1.mem, c.1 < top := by
  induction n generalizing a i s with
  | zero => exact ⟨hw, ht⟩
  | succ n ih =>
    simp only [readLoop]
    cases hk : s.eng.ksByte with
    | none => exact ⟨hw, ht⟩
    | some p =>
      obtain ⟨b, e⟩ := p
      refine ih _ _ _ (Memory.wf_store _ _ hw) ?_ (by omega)
      intro c hc
      rcases Memory.mem_store hc with rfl | hc
      · simp only; omega
      · exact ht c hc

/-- XOR's loop keeps memory canonical and inside the addresses it was given. -/
theorem xorLoop_memory (n p a i top : Nat) (s : State) (hw : Memory.wf s.mem = true) (ht : ∀ c ∈ s.mem, c.1 < top)
    (hr : n = 0 ∨ a + n ≤ top) :
    Memory.wf (xorLoop n p a i s).1.mem = true ∧ ∀ c ∈ (xorLoop n p a i s).1.mem, c.1 < top := by
  induction n generalizing p a i s with
  | zero => exact ⟨hw, ht⟩
  | succ n ih =>
    simp only [xorLoop]
    cases hk : s.eng.ksByte with
    | none => exact ⟨hw, ht⟩
    | some q =>
      obtain ⟨b, e⟩ := q
      have hread : (State.memRead { s with eng := e } p).2.mem = s.mem := by
        rcases State.memRead_cases { s with eng := e } p with ⟨v, _, h⟩ | ⟨_, h⟩ <;> rw [h]
      refine ih _ _ _ _ ?_ ?_ (by omega)
      · simp only [State.memWrite, hread]
        exact Memory.wf_store _ _ hw
      · intro c hc
        simp only [State.memWrite, hread] at hc
        rcases Memory.mem_store hc with rfl | hc
        · simp only; omega
        · exact ht c hc

/-- XOR's loop for `n` bytes, read from `p` up and written from `a` up (R100, R51). Each byte written is the byte
read, as it stood after the earlier writes, exclusive-or the next byte of the stream; a byte that held no value is
drawn (R41). -/
theorem xorLoop_spec (n p a i : Nat) (s : State) :
    ∃ mem draws, xorLoop n p a i s =
        ({ s with eng := s.eng.afterBytes (min n s.eng.bytesLeft), mem := mem, draws := draws },
          i + min n s.eng.bytesLeft, decide (s.eng.bytesLeft < n)) ∧
      s.draws ≤ draws ∧
      (∀ x, ¬ (a ≤ x ∧ x < a + min n s.eng.bytesLeft) → Memory.lookup mem x = Memory.lookup s.mem x) ∧
      (∀ j, j < min n s.eng.bytesLeft → ∃ v, Memory.lookup mem (a + j) = some (v ^^^ s.eng.upcomingByte j) ∧
        ((if a ≤ p + j ∧ p + j < a + j then Memory.lookup mem (p + j) else Memory.lookup s.mem (p + j)) = some v ∨
          (if a ≤ p + j ∧ p + j < a + j then Memory.lookup mem (p + j) else Memory.lookup s.mem (p + j)) = none ∧
            ∃ k, s.draws ≤ k ∧ k < draws ∧ v = Config.freeByte k)) := by
  induction n generalizing p a i s with
  | zero =>
    refine ⟨s.mem, s.draws, ?_, Nat.le_refl _, fun _ _ => rfl, ?_⟩
    · simp [xorLoop, Engine.afterBytes_zero]
    · intro j hj; omega
  | succ n ih =>
    cases hk : s.eng.ksByte with
    | none =>
      have h0 := (Engine.ksByte_eq_none_iff s.eng).1 hk
      refine ⟨s.mem, s.draws, ?_, Nat.le_refl _, fun _ _ => rfl, ?_⟩
      · simp [xorLoop, hk, h0, Engine.afterBytes_zero]
      · intro j hj; omega
    | some q =>
      obtain ⟨b, e⟩ := q
      obtain ⟨hb, he, hleft⟩ := Engine.ksByte_some hk
      -- the byte read: listed, or drawn
      obtain ⟨v, d, hread, hd, hv⟩ : ∃ v d, State.memRead { s with eng := e } p = (v, { s with eng := e, draws := d }) ∧
          s.draws ≤ d ∧ (Memory.lookup s.mem p = some v ∨
            Memory.lookup s.mem p = none ∧ ∃ k, s.draws ≤ k ∧ k < d ∧ v = Config.freeByte k) := by
        rcases State.memRead_cases { s with eng := e } p with ⟨v, hv, h⟩ | ⟨hv, h⟩
        · exact ⟨v, s.draws, h, Nat.le_refl _, .inl hv⟩
        · exact ⟨_, s.draws + 1, h, by omega, .inr ⟨hv, s.draws, Nat.le_refl _, by omega, rfl⟩⟩
      obtain ⟨mem, draws, hrun, hdraws, hother, hbytes⟩ := ih (p + 1) (a + 1) (i + 1)
        (State.memWrite { s with eng := e, draws := d } a (v ^^^ b))
      have hmin : min (n + 1) s.eng.bytesLeft = 1 + min n e.bytesLeft := by omega
      have hadd : e.afterBytes (min n e.bytesLeft) = s.eng.afterBytes (1 + min n e.bytesLeft) := by
        rw [he, Engine.afterBytes_add _ _ _ (by rw [← he]; omega)]
      simp only [State.memWrite] at hdraws hother hbytes
      have hfirst : Memory.lookup mem a = some (v ^^^ b) := by
        rw [hother a (by omega), Memory.lookup_store_same]
      refine ⟨mem, draws, ?_, by omega, ?_, ?_⟩
      · simp only [xorLoop, hk, hread, hrun]
        simp only [State.memWrite, hmin, hadd]
        congr 2
        · omega
        · congr 1
          rw [eq_iff_iff]
          omega
      · intro x hx
        rw [hother x (by omega), Memory.lookup_store_other _ _ (by omega)]
      · intro j hj
        cases j with
        | zero =>
          have hno : ¬ (a ≤ p + 0 ∧ p + 0 < a + 0) := by omega
          refine ⟨v, by rw [Nat.add_zero, hfirst, hb], ?_⟩
          simp only [if_neg hno]
          rcases hv with hv | ⟨hv, k, hk1, hk2, hk3⟩
          · exact .inl hv
          · exact .inr ⟨hv, k, hk1, by omega, hk3⟩
        | succ j =>
          obtain ⟨w, hw, hsrc⟩ := hbytes j (by omega)
          have hup : e.upcomingByte j = s.eng.upcomingByte (j + 1) := by
            rw [he, Engine.upcomingByte_afterBytes, Nat.add_comm]
          have ha : a + 1 + j = a + (j + 1) := by omega
          have hp : p + 1 + j = p + (j + 1) := by omega
          simp only [ha, hp] at hw hsrc
          refine ⟨w, by rw [hw, hup], ?_⟩
          -- the byte read at this step, in the two descriptions of memory
          have hsame : (if a + 1 ≤ p + (j + 1) ∧ p + (j + 1) < a + (j + 1) then Memory.lookup mem (p + (j + 1))
              else Memory.lookup (Memory.store s.mem a (v ^^^ b)) (p + (j + 1))) =
              if a ≤ p + (j + 1) ∧ p + (j + 1) < a + (j + 1) then Memory.lookup mem (p + (j + 1))
              else Memory.lookup s.mem (p + (j + 1)) := by
            by_cases hq : p + (j + 1) = a
            · have h1 : ¬ (a + 1 ≤ p + (j + 1) ∧ p + (j + 1) < a + (j + 1)) := by omega
              have h2 : a ≤ p + (j + 1) ∧ p + (j + 1) < a + (j + 1) := by omega
              rw [if_neg h1, if_pos h2, hq, Memory.lookup_store_same, hfirst]
            · rw [Memory.lookup_store_other _ _ hq]
              by_cases h1 : a + 1 ≤ p + (j + 1) ∧ p + (j + 1) < a + (j + 1)
              · have h2 : a ≤ p + (j + 1) ∧ p + (j + 1) < a + (j + 1) := by omega
                rw [if_pos h1, if_pos h2]
              · have h2 : ¬ (a ≤ p + (j + 1) ∧ p + (j + 1) < a + (j + 1)) := by omega
                rw [if_neg h1, if_neg h2]
          rw [hsame] at hsrc
          rcases hsrc with h | ⟨h, k, hk1, hk2, hk3⟩
          · exact .inl h
          · exact .inr ⟨h, k, by omega, hk2, hk3⟩

end Sys2Proof.Machine
end

