-- ==== Sys2Proof/Laws/State.lean ====
section
/-! SUPPORT. What each named update of the state does to each field, one lemma a field, so that no proof unfolds a
record update. -/

namespace Sys2Proof.Machine

/-! ### reject -/

@[simp] theorem State.reject_mem (s : State) (code : ErrCode) : (s.reject code).mem = s.mem := rfl
@[simp] theorem State.reject_cfg (s : State) (code : ErrCode) : (s.reject code).cfg = s.cfg := rfl
@[simp] theorem State.reject_host (s : State) (code : ErrCode) : (s.reject code).host = s.host := rfl
@[simp] theorem State.reject_draws (s : State) (code : ErrCode) : (s.reject code).draws = s.draws := rfl
@[simp] theorem State.reject_m (s : State) (code : ErrCode) : (s.reject code).eng.m = s.eng.m := rfl
@[simp] theorem State.reject_outbuf (s : State) (code : ErrCode) : (s.reject code).eng.outbuf = s.eng.outbuf := rfl
@[simp] theorem State.reject_cursor (s : State) (code : ErrCode) : (s.reject code).eng.cursor = s.eng.cursor := rfl
@[simp] theorem State.reject_roundCount (s : State) (code : ErrCode) : (s.reject code).eng.roundCount = s.eng.roundCount := rfl
@[simp] theorem State.reject_exhausted (s : State) (code : ErrCode) : (s.reject code).eng.exhausted = s.eng.exhausted := rfl
@[simp] theorem State.reject_ready (s : State) (code : ErrCode) : (s.reject code).eng.ready = s.eng.ready := rfl
@[simp] theorem State.reject_abort (s : State) (code : ErrCode) : (s.reject code).eng.abort = s.eng.abort := rfl
@[simp] theorem State.reject_eos (s : State) (code : ErrCode) : (s.reject code).eng.eos = s.eng.eos := rfl
@[simp] theorem State.reject_err (s : State) (code : ErrCode) : (s.reject code).eng.err = code := rfl
@[simp] theorem State.reject_count (s : State) (code : ErrCode) : (s.reject code).eng.count = s.eng.count := rfl
@[simp] theorem State.reject_args (s : State) (code : ErrCode) : (s.reject code).eng.args = s.eng.args := rfl

/-! ### complete -/

@[simp] theorem State.complete_mem (s : State) (n : Nat) (b : Bool) : (s.complete n b).mem = s.mem := rfl
@[simp] theorem State.complete_cfg (s : State) (n : Nat) (b : Bool) : (s.complete n b).cfg = s.cfg := rfl
@[simp] theorem State.complete_host (s : State) (n : Nat) (b : Bool) : (s.complete n b).host = s.host := rfl
@[simp] theorem State.complete_draws (s : State) (n : Nat) (b : Bool) : (s.complete n b).draws = s.draws := rfl
@[simp] theorem State.complete_m (s : State) (n : Nat) (b : Bool) : (s.complete n b).eng.m = s.eng.m := rfl
@[simp] theorem State.complete_outbuf (s : State) (n : Nat) (b : Bool) : (s.complete n b).eng.outbuf = s.eng.outbuf := rfl
@[simp] theorem State.complete_cursor (s : State) (n : Nat) (b : Bool) : (s.complete n b).eng.cursor = s.eng.cursor := rfl
@[simp] theorem State.complete_roundCount (s : State) (n : Nat) (b : Bool) : (s.complete n b).eng.roundCount = s.eng.roundCount := rfl
@[simp] theorem State.complete_exhausted (s : State) (n : Nat) (b : Bool) : (s.complete n b).eng.exhausted = s.eng.exhausted := rfl
@[simp] theorem State.complete_ready (s : State) (n : Nat) (b : Bool) : (s.complete n b).eng.ready = s.eng.ready := rfl
@[simp] theorem State.complete_abort (s : State) (n : Nat) (b : Bool) : (s.complete n b).eng.abort = s.eng.abort := rfl
@[simp] theorem State.complete_eos (s : State) (n : Nat) (b : Bool) : (s.complete n b).eng.eos = b := rfl
@[simp] theorem State.complete_err (s : State) (n : Nat) (b : Bool) : (s.complete n b).eng.err = .ok := rfl
@[simp] theorem State.complete_count (s : State) (n : Nat) (b : Bool) : (s.complete n b).eng.count = BitVec.ofNat 32 n := rfl
@[simp] theorem State.complete_args (s : State) (n : Nat) (b : Bool) : (s.complete n b).eng.args = s.eng.args := rfl

/-! ### exhaustionAbort -/

@[simp] theorem State.exhaustionAbort_mem (s : State) (n : Nat) : (s.exhaustionAbort n).mem = s.mem := rfl
@[simp] theorem State.exhaustionAbort_cfg (s : State) (n : Nat) : (s.exhaustionAbort n).cfg = s.cfg := rfl
@[simp] theorem State.exhaustionAbort_host (s : State) (n : Nat) : (s.exhaustionAbort n).host = s.host := rfl
@[simp] theorem State.exhaustionAbort_draws (s : State) (n : Nat) : (s.exhaustionAbort n).draws = s.draws := rfl
@[simp] theorem State.exhaustionAbort_m (s : State) (n : Nat) : (s.exhaustionAbort n).eng.m = s.eng.m := rfl
@[simp] theorem State.exhaustionAbort_outbuf (s : State) (n : Nat) : (s.exhaustionAbort n).eng.outbuf = s.eng.outbuf := rfl
@[simp] theorem State.exhaustionAbort_cursor (s : State) (n : Nat) : (s.exhaustionAbort n).eng.cursor = s.eng.cursor := rfl
@[simp] theorem State.exhaustionAbort_roundCount (s : State) (n : Nat) : (s.exhaustionAbort n).eng.roundCount = s.eng.roundCount := rfl
@[simp] theorem State.exhaustionAbort_exhausted (s : State) (n : Nat) : (s.exhaustionAbort n).eng.exhausted = s.eng.exhausted := rfl
@[simp] theorem State.exhaustionAbort_ready (s : State) (n : Nat) : (s.exhaustionAbort n).eng.ready = s.eng.ready := rfl
@[simp] theorem State.exhaustionAbort_abort (s : State) (n : Nat) : (s.exhaustionAbort n).eng.abort = true := rfl
@[simp] theorem State.exhaustionAbort_eos (s : State) (n : Nat) : (s.exhaustionAbort n).eng.eos = false := rfl
@[simp] theorem State.exhaustionAbort_err (s : State) (n : Nat) : (s.exhaustionAbort n).eng.err = .exhaustionAbort := rfl
@[simp] theorem State.exhaustionAbort_count (s : State) (n : Nat) : (s.exhaustionAbort n).eng.count = BitVec.ofNat 32 n := rfl
@[simp] theorem State.exhaustionAbort_args (s : State) (n : Nat) : (s.exhaustionAbort n).eng.args = s.eng.args := rfl

/-! ### engineReset -/

@[simp] theorem State.engineReset_mem (s : State) : (s.engineReset).mem = s.mem := rfl
@[simp] theorem State.engineReset_cfg (s : State) : (s.engineReset).cfg = s.cfg := rfl
@[simp] theorem State.engineReset_host (s : State) : (s.engineReset).host = s.host := rfl
@[simp] theorem State.engineReset_draws (s : State) : (s.engineReset).draws = s.draws := rfl
@[simp] theorem State.engineReset_eng (s : State) : (s.engineReset).eng = Engine.reset := rfl

/-! ### memWrite -/

@[simp] theorem State.memWrite_mem (s : State) (a : Nat) (v : Byte) : (s.memWrite a v).mem = Memory.store s.mem a v := rfl
@[simp] theorem State.memWrite_cfg (s : State) (a : Nat) (v : Byte) : (s.memWrite a v).cfg = s.cfg := rfl
@[simp] theorem State.memWrite_host (s : State) (a : Nat) (v : Byte) : (s.memWrite a v).host = s.host := rfl
@[simp] theorem State.memWrite_draws (s : State) (a : Nat) (v : Byte) : (s.memWrite a v).draws = s.draws := rfl
@[simp] theorem State.memWrite_eng (s : State) (a : Nat) (v : Byte) : (s.memWrite a v).eng = s.eng := rfl

/-! ### observe -/

@[simp] theorem State.observe_mem (s : State) (r : Reading) : (s.observe r).mem = s.mem := rfl
@[simp] theorem State.observe_cfg (s : State) (r : Reading) : (s.observe r).cfg = s.cfg := rfl
@[simp] theorem State.observe_host (s : State) (r : Reading) : (s.observe r).host = { s.host with readings := r :: s.host.readings } := rfl
@[simp] theorem State.observe_draws (s : State) (r : Reading) : (s.observe r).draws = s.draws := rfl
@[simp] theorem State.observe_eng (s : State) (r : Reading) : (s.observe r).eng = s.eng := rfl

/-! ### advance -/

@[simp] theorem State.advance_mem (s : State) : (s.advance).mem = s.mem := rfl
@[simp] theorem State.advance_cfg (s : State) : (s.advance).cfg = s.cfg := rfl
@[simp] theorem State.advance_host (s : State) : (s.advance).host = { s.host with script := s.host.script.tail, position := s.host.position + 1 } := rfl
@[simp] theorem State.advance_draws (s : State) : (s.advance).draws = s.draws := rfl
@[simp] theorem State.advance_eng (s : State) : (s.advance).eng = s.eng := rfl

/-! ### runInit -/

@[simp] theorem State.runInit_mem (s : State) : (s.runInit).mem = s.mem := rfl
@[simp] theorem State.runInit_cfg (s : State) : (s.runInit).cfg = s.cfg := rfl
@[simp] theorem State.runInit_host (s : State) : (s.runInit).host = s.host := rfl
@[simp] theorem State.runInit_draws (s : State) : (s.runInit).draws = s.draws := rfl
@[simp] theorem State.runInit_m (s : State) : (s.runInit).eng.m = s.eng.args.initMatrix := rfl
@[simp] theorem State.runInit_outbuf (s : State) : (s.runInit).eng.outbuf = Vector.replicate 64 0 := rfl
@[simp] theorem State.runInit_cursor (s : State) : (s.runInit).eng.cursor = 64 := rfl
@[simp] theorem State.runInit_roundCount (s : State) : (s.runInit).eng.roundCount = s.eng.args.rounds := rfl
@[simp] theorem State.runInit_exhausted (s : State) : (s.runInit).eng.exhausted = false := rfl
@[simp] theorem State.runInit_ready (s : State) : (s.runInit).eng.ready = true := rfl
@[simp] theorem State.runInit_abort (s : State) : (s.runInit).eng.abort = s.eng.abort := rfl
@[simp] theorem State.runInit_eos (s : State) : (s.runInit).eng.eos = false := rfl
@[simp] theorem State.runInit_err (s : State) : (s.runInit).eng.err = .ok := rfl
@[simp] theorem State.runInit_count (s : State) : (s.runInit).eng.count = 0 := rfl
@[simp] theorem State.runInit_args (s : State) : (s.runInit).eng.args = s.eng.args := rfl

end Sys2Proof.Machine
end

