-- ==== Sys2Proof/Laws/Commands.lean ====
section
/-! SUPPORT. Each command's acceptance check and everything its meaning can do, said once. -/

namespace Sys2Proof.Machine

/-! ### Acceptance -/

theorem badRounds_iff (r : Word) : badRounds r = true ↔ r = 0 ∨ r.toNat % 2 = 1 := by
  have h : r.getLsbD 0 = decide (r.toNat % 2 = 1) := by
    simp only [BitVec.getLsbD, Nat.testBit_zero]
  simp only [badRounds, h, Bool.or_eq_true, beq_iff_eq, decide_eq_true_eq]

/-- An even round count that is not 0 is accepted (R128). -/
theorem badRounds_eq_false {r : Word} (h0 : r ≠ 0) (h : r.toNat % 2 = 0) : badRounds r = false := by
  rw [Bool.eq_false_iff, ne_eq, badRounds_iff]
  rintro (h1 | h1)
  · exact h0 h1
  · omega

theorem cmdCheck_init (s : State) : cmdCheck .init s =
    if s.eng.abort then some .halted else if badRounds s.eng.args.rounds then some .badRounds else none := by
  simp [cmdCheck]

theorem cmdCheck_seek (s : State) : cmdCheck .seek s =
    if s.eng.abort then some .halted else if s.eng.ready then none else some .notInit := by
  cases ha : s.eng.abort <;> cases hr : s.eng.ready <;> simp [cmdCheck, ha, hr]

theorem cmdCheck_read (s : State) : cmdCheck .read s =
    if s.eng.abort then some .halted
    else if s.eng.ready then (if s.dstInRange then none else some .range) else some .notInit := by
  cases ha : s.eng.abort <;> cases hr : s.eng.ready <;> cases hd : s.dstInRange <;> simp [cmdCheck, ha, hr, hd]

theorem cmdCheck_xor (s : State) : cmdCheck .xor s =
    if s.eng.abort then some .halted
    else if s.eng.ready then (if s.srcInRange && s.dstInRange then none else some .range) else some .notInit := by
  cases ha : s.eng.abort <;> cases hr : s.eng.ready <;> cases hd : s.dstInRange <;> cases hs : s.srcInRange <;>
    simp [cmdCheck, ha, hr, hd, hs]

theorem dstInRange_iff (s : State) :
    s.dstInRange = true ↔ s.eng.args.len.toNat = 0 ∨ s.eng.args.dst.toNat + s.eng.args.len.toNat ≤ s.cfg.memSize :=
  Config.inRange_iff _ _ _

theorem srcInRange_iff (s : State) :
    s.srcInRange = true ↔ s.eng.args.len.toNat = 0 ∨ s.eng.args.src.toNat + s.eng.args.len.toNat ≤ s.cfg.memSize :=
  Config.inRange_iff _ _ _

/-- An accepted command finds the engine not halted. -/
theorem cmdCheck_none_abort {i : Instr} {s : State} (h : cmdCheck i s = none) : s.eng.abort = false := by
  cases ha : s.eng.abort
  · rfl
  · simp [cmdCheck, ha] at h

/-- An accepted command other than INIT finds the engine ready. -/
theorem cmdCheck_none_ready {i : Instr} {s : State} (h : cmdCheck i s = none) (hi : i ≠ .init) :
    s.eng.ready = true := by
  have ha := cmdCheck_none_abort h
  cases hr : s.eng.ready
  · cases i
    · exact absurd rfl hi
    · simp [cmdCheck_seek, ha, hr] at h
    · simp [cmdCheck_read, ha, hr] at h
    · simp [cmdCheck_xor, ha, hr] at h
  · rfl

/-- An accepted READ or XOR has its output range inside data memory. -/
theorem cmdCheck_none_dst {i : Instr} {s : State} (h : cmdCheck i s = none) (hi : i = .read ∨ i = .xor) :
    s.eng.args.len.toNat = 0 ∨ s.eng.args.dst.toNat + s.eng.args.len.toNat ≤ s.cfg.memSize := by
  have ha := cmdCheck_none_abort h
  have hr : s.eng.ready = true := cmdCheck_none_ready h (by rcases hi with rfl | rfl <;> decide)
  rw [← dstInRange_iff]
  cases hd : s.dstInRange
  · rcases hi with rfl | rfl
    · simp [cmdCheck_read, ha, hr, hd] at h
    · simp [cmdCheck_xor, ha, hr, hd] at h
  · rfl

/-- The codes of a rejection (R121: ERR 1 to 5, and here 2 to 5). -/
theorem cmdCheck_some_code {i : Instr} {s : State} {code : ErrCode} (h : cmdCheck i s = some code) :
    code ≠ .ok ∧ code ≠ .exhaustionAbort ∧ code ≠ .illegalCmd ∧ (code = .halted ↔ s.eng.abort = true) ∧
      (code = .notInit → s.eng.ready = false) ∧ (code = .badRounds → i = .init) ∧
      (code = .range → (i = .read ∨ i = .xor) ∧ s.eng.args.len ≠ 0) := by
  have hlen : s.eng.args.len = 0 → s.dstInRange = true ∧ s.srcInRange = true := by
    intro h; simp [dstInRange_iff, srcInRange_iff, h]
  unfold cmdCheck at h
  cases ha : s.eng.abort <;> cases hr : s.eng.ready <;> cases hd : s.dstInRange <;> cases hs : s.srcInRange <;>
    cases hb : badRounds s.eng.args.rounds <;> cases i <;>
      simp_all <;> cases h <;> simp_all

/-! ### What each meaning does -/

/-- A rejected command writes `err` alone (R90). -/
theorem exec_rejected {i : Instr} {s : State} {code : ErrCode} (h : cmdCheck i s = some code) :
    exec i s = .next (s.reject code) := by
  cases i <;> simp [exec, execInit, execSeek, execRead, execXor, h]

theorem exec_init_accepted {s : State} (h : cmdCheck .init s = none) : exec .init s = .next s.runInit := by
  simp [exec, execInit, h]

/-- The engine SEEK leaves, but for `count`, `eos` and `err` (R94). -/
def Engine.sought (e : Engine) (n : BitVec 64) : Engine :=
  { e with
    m := Matrix.withCtr e.m (n + 1)
    outbuf := serialise (block (Matrix.withCtr e.m n) e.roundCount)
    cursor := 0
    exhausted := ctrWrapped (n + 1) }

@[simp] theorem Engine.sought_roundCount (e : Engine) (n : BitVec 64) : (e.sought n).roundCount = e.roundCount := rfl
@[simp] theorem Engine.sought_ready (e : Engine) (n : BitVec 64) : (e.sought n).ready = e.ready := rfl
@[simp] theorem Engine.sought_abort (e : Engine) (n : BitVec 64) : (e.sought n).abort = e.abort := rfl
@[simp] theorem Engine.sought_eos (e : Engine) (n : BitVec 64) : (e.sought n).eos = e.eos := rfl
@[simp] theorem Engine.sought_err (e : Engine) (n : BitVec 64) : (e.sought n).err = e.err := rfl
@[simp] theorem Engine.sought_count (e : Engine) (n : BitVec 64) : (e.sought n).count = e.count := rfl
@[simp] theorem Engine.sought_args (e : Engine) (n : BitVec 64) : (e.sought n).args = e.args := rfl
@[simp] theorem Engine.sought_cursor (e : Engine) (n : BitVec 64) : (e.sought n).cursor = 0 := rfl
@[simp] theorem Engine.sought_outbuf (e : Engine) (n : BitVec 64) : (e.sought n).outbuf = e.blockBytes n := rfl
@[simp] theorem Engine.sought_exhausted (e : Engine) (n : BitVec 64) :
    (e.sought n).exhausted = ctrWrapped (n + 1) := rfl
@[simp] theorem Engine.sought_ctr (e : Engine) (n : BitVec 64) : (e.sought n).ctr = n + 1 := by
  simp [Engine.sought, Engine.ctr]
@[simp] theorem Engine.sought_blockBytes (e : Engine) (n k : BitVec 64) :
    (e.sought n).blockBytes k = e.blockBytes k := by
  simp [Engine.sought, Engine.blockBytes]

/-- NEXT cannot fail inside SEEK (R94). -/
theorem Engine.next_seekTo (e : Engine) (n : BitVec 64) : Engine.next (e.seekTo n) = some (e.sought n) := by
  rw [Engine.next_ready rfl]
  simp [Engine.seekTo, Engine.sought, Engine.ctr]

theorem exec_seek_accepted {s : State} (h : cmdCheck .seek s = none) :
    exec .seek s = .next (State.complete { s with eng := s.eng.sought s.eng.args.seekIndex } 0 false) := by
  simp [exec, execSeek, h, Engine.next_seekTo]

/-- An accepted READ (R97). -/
theorem exec_read_accepted {s : State} (h : cmdCheck .read s = none) :
    ∃ mem, exec .read s = .next (State.complete
        { s with eng := s.eng.afterBytes (min s.eng.args.len.toNat s.eng.bytesLeft), mem := mem }
        (min s.eng.args.len.toNat s.eng.bytesLeft) (decide (s.eng.bytesLeft < s.eng.args.len.toNat))) ∧
      ∀ x, Memory.lookup mem x =
        if s.eng.args.dst.toNat ≤ x ∧ x < s.eng.args.dst.toNat + min s.eng.args.len.toNat s.eng.bytesLeft
        then some (s.eng.upcomingByte (x - s.eng.args.dst.toNat)) else Memory.lookup s.mem x := by
  obtain ⟨mem, hrun, hmem⟩ := readLoop_spec s.eng.args.len.toNat s.eng.args.dst.toNat 0 s
  refine ⟨mem, ?_, hmem⟩
  simp [exec, execRead, h, hrun]

/-- An accepted READ keeps data memory canonical and in range. -/
theorem exec_read_memory {s t : State} (h : cmdCheck .read s = none) (ht : exec .read s = .next t)
    (hw : Memory.wf s.mem = true) (hs : ∀ c ∈ s.mem, c.1 < s.cfg.memSize) :
    Memory.wf t.mem = true ∧ ∀ c ∈ t.mem, c.1 < s.cfg.memSize := by
  have := readLoop_memory s.eng.args.len.toNat s.eng.args.dst.toNat 0 s.cfg.memSize s hw hs
    (cmdCheck_none_dst h (.inl rfl))
  simp only [exec, execRead, h, Host.Outcome.next.injEq] at ht
  subst ht
  exact this

/-- An accepted XOR keeps data memory canonical and in range. -/
theorem exec_xor_memory {s t : State} (h : cmdCheck .xor s = none) (ht : exec .xor s = .next t)
    (hw : Memory.wf s.mem = true) (hs : ∀ c ∈ s.mem, c.1 < s.cfg.memSize) :
    Memory.wf t.mem = true ∧ ∀ c ∈ t.mem, c.1 < s.cfg.memSize := by
  have := xorLoop_memory s.eng.args.len.toNat s.eng.args.src.toNat s.eng.args.dst.toNat 0 s.cfg.memSize s hw hs
    (cmdCheck_none_dst h (.inr rfl))
  simp only [exec, execXor, h] at ht
  split at ht
  all_goals
    simp only [Host.Outcome.next.injEq] at ht
    subst ht
    exact this

/-- An accepted XOR (R100, R126): it completes, or it aborts at the byte whose refill fails. -/
theorem exec_xor_accepted {s : State} (h : cmdCheck .xor s = none) :
    ∃ mem draws, exec .xor s = .next (
        let u : State := { s with
          eng := s.eng.afterBytes (min s.eng.args.len.toNat s.eng.bytesLeft)
          mem := mem
          draws := draws }
        if s.eng.bytesLeft < s.eng.args.len.toNat then u.exhaustionAbort s.eng.bytesLeft
        else u.complete s.eng.args.len.toNat false) ∧
      s.draws ≤ draws ∧
      (∀ x, ¬ (s.eng.args.dst.toNat ≤ x ∧ x < s.eng.args.dst.toNat + min s.eng.args.len.toNat s.eng.bytesLeft) →
        Memory.lookup mem x = Memory.lookup s.mem x) ∧
      (∀ j, j < min s.eng.args.len.toNat s.eng.bytesLeft →
        ∃ v, Memory.lookup mem (s.eng.args.dst.toNat + j) = some (v ^^^ s.eng.upcomingByte j) ∧
          ((if s.eng.args.dst.toNat ≤ s.eng.args.src.toNat + j ∧ s.eng.args.src.toNat + j < s.eng.args.dst.toNat + j
              then Memory.lookup mem (s.eng.args.src.toNat + j)
              else Memory.lookup s.mem (s.eng.args.src.toNat + j)) = some v ∨
            (if s.eng.args.dst.toNat ≤ s.eng.args.src.toNat + j ∧ s.eng.args.src.toNat + j < s.eng.args.dst.toNat + j
              then Memory.lookup mem (s.eng.args.src.toNat + j)
              else Memory.lookup s.mem (s.eng.args.src.toNat + j)) = none ∧
              ∃ k, s.draws ≤ k ∧ k < draws ∧ v = Config.freeByte k)) := by
  obtain ⟨mem, draws, hrun, hdraws, hother, hbytes⟩ :=
    xorLoop_spec s.eng.args.len.toNat s.eng.args.src.toNat s.eng.args.dst.toNat 0 s
  refine ⟨mem, draws, ?_, hdraws, hother, hbytes⟩
  simp only [exec, execXor, h, hrun, Nat.zero_add, decide_eq_true_eq]
  split
  · rename_i hlt
    rw [Nat.min_eq_right (Nat.le_of_lt hlt)]
  · rename_i hlt
    rw [Nat.min_eq_left (Nat.not_lt.1 hlt)]

end Sys2Proof.Machine
end

