-- ==== Sys2Proof/Laws/Decode.lean ====
section
/-! SUPPORT. Words and their byte lanes (R44), and the command words (R60, R61). -/

namespace Sys2Proof

/-- The byte lanes of a word give the word back (R44). -/
@[simp] theorem le32_byteOf (w : Word) : le32 (byteOf w 0) (byteOf w 1) (byteOf w 2) (byteOf w 3) = w := by
  apply BitVec.eq_of_getLsbD_eq
  intro k hk
  have hcase : k < 8 ∨ (8 ≤ k ∧ k < 16) ∨ (16 ≤ k ∧ k < 24) ∨ 24 ≤ k := by omega
  simp only [le32, byteOf, BitVec.getLsbD_append, BitVec.getLsbD_extractLsb']
  rcases hcase with h | h | h | h
  · simp [h]
  · have a1 : ¬ k < 8 := by omega
    have a2 : k - 8 < 8 := by omega
    have a3 : 8 + (k - 8) = k := by omega
    simp [a1, a2, a3]
  · have a1 : ¬ k < 8 := by omega
    have a2 : ¬ k - 8 < 8 := by omega
    have a3 : k - 8 - 8 < 8 := by omega
    have a4 : 16 + (k - 8 - 8) = k := by omega
    simp [a1, a2, a3, a4]
  · have a1 : ¬ k < 8 := by omega
    have a2 : ¬ k - 8 < 8 := by omega
    have a3 : ¬ k - 8 - 8 < 8 := by omega
    have a4 : k - 8 - 8 - 8 < 8 := by omega
    have a5 : 24 + (k - 8 - 8 - 8) = k := by omega
    simp [a1, a2, a3, a4, a5]

/-- Decoding the lanes of a word is decoding the word (R44). -/
@[simp] theorem decodeLanes_lanesOf (w : Word) : decodeLanes (lanesOf w) = decode w := by
  simp [decodeLanes, lanesOf]

theorem decode_encode (i : Instr) : decode (encode i) = .ok i := by cases i <;> rfl

/-- A word that decodes is the command's own word (R61). -/
theorem decode_ok {v : Word} {i : Instr} (h : decode v = .ok i) : v = encode i := by
  unfold decode at h
  split at h
  · cases h; assumption
  · split at h
    · cases h; assumption
    · split at h
      · cases h; assumption
      · split at h
        · cases h; assumption
        · cases h

/-- The table's word decodes as the word itself. -/
theorem decode_of_decodeTableWord {nbits w : Nat} {i : Instr} (h : decodeTableWord nbits w = some i) :
    decode (tableWord nbits w) = .ok i := by
  simp only [decodeTableWord, decodeLanes_lanesOf] at h
  cases hd : decode (tableWord nbits w) with
  | ok j => rw [hd] at h; exact congrArg Except.ok (Option.some.inj h)
  | error r => rw [hd] at h; cases h

end Sys2Proof
end

