-- ==== Sys2Proof/Laws/PerInstr.lean ====
section
/-! SUPPORT. The family `OnlyItsWord`: a CMD value decodes to an instruction exactly when it is that instruction's own
command word (R60, R61). -/

namespace Sys2Proof.Laws.OnlyItsWord

/-- One 32-bit value, and no other, is the instruction's command word. -/
def Statement (i : Instr) : Prop := ∀ v : Word, decode v = .ok i ↔ v = encode i

theorem init : Statement .init := fun _ => ⟨decode_ok, fun h => h ▸ decode_encode _⟩

theorem seek : Statement .seek := fun _ => ⟨decode_ok, fun h => h ▸ decode_encode _⟩

theorem read : Statement .read := fun _ => ⟨decode_ok, fun h => h ▸ decode_encode _⟩

theorem xor : Statement .xor := fun _ => ⟨decode_ok, fun h => h ▸ decode_encode _⟩

end Sys2Proof.Laws.OnlyItsWord
end

