-- ==== Sys2Proof/Laws/Step.lean ====
section
/-! SUPPORT. Everything a step can do, said once; the host's memory accesses; the window's offsets. -/

namespace Sys2Proof.Machine

/-! ### The window -/

theorem Slot.ofIndex_offset (w : Fin 64) : (Slot.ofIndex w).offset = BitVec.ofNat 8 (4 * w.val) := by
  revert w; decide

@[simp] theorem Slot.ofOffset_offset (r : Slot) : Slot.ofOffset r.offset = some r := by
  cases r
  case key i => revert i; decide
  case reserved i => revert i; decide
  all_goals decide

theorem Slot.offset_of_ofOffset {off : BitVec 8} {r : Slot} (h : Slot.ofOffset off = some r) : r.offset = off := by
  unfold Slot.ofOffset at h
  split at h
  · rename_i hm
    rw [← Option.some.inj h, Slot.ofIndex_offset]
    apply BitVec.eq_of_toNat_eq
    have := off.isLt
    simp only [BitVec.toNat_ofNat]
    omega
  · cases h

/-- Every aligned offset names a slot (R59). -/
theorem Slot.exists_ofOffset {off : BitVec 8} (h : off.toNat % 4 = 0) :
    ∃ r, Slot.ofOffset off = some r ∧ r.offset = off := by
  have : Slot.ofOffset off = some (Slot.ofIndex ⟨off.toNat / 4, by omega⟩) := by simp [Slot.ofOffset, h]
  exact ⟨_, this, Slot.offset_of_ofOffset this⟩

/-- Two slots at one offset are one slot (R59). -/
theorem Slot.offset_inj {r r' : Slot} (h : r.offset = r'.offset) : r = r' := by
  have h1 := Slot.ofOffset_offset r
  rw [h, Slot.ofOffset_offset] at h1
  exact (Option.some.inj h1).symm

theorem accessSlot_word (off : BitVec 8) : accessSlot .word off = Slot.ofOffset off := rfl

/-- The slots that only an aligned 32-bit access reaches (R115). -/
theorem accessSlot_some {width : AccessWidth} {off : BitVec 8} {r : Slot} (h : accessSlot width off = some r) :
    width = .word ∧ r.offset = off := by
  cases width
  · cases h
  · cases h
  · exact ⟨rfl, Slot.offset_of_ofOffset h⟩
  · cases h

/-! ### Host addresses -/

/-- A host address that is REG_BASE plus an offset of the window is that offset (R59). -/
theorem Config.windowOffset_add (c : Config) (off : BitVec 8) :
    Config.windowOffset c (c.regBase + off.toNat) = some off := by
  have := off.isLt
  unfold Config.windowOffset
  rw [if_pos (by omega)]
  congr 1
  apply BitVec.eq_of_toNat_eq
  rw [BitVec.toNat_ofNat]
  omega

/-- A host address outside the window names no offset. -/
theorem Config.windowOffset_outside (c : Config) {addr : Nat} (h : addr < c.regBase ∨ c.regBase + 256 ≤ addr) :
    Config.windowOffset c addr = none := by
  unfold Config.windowOffset
  rw [if_neg (by omega)]

@[simp] theorem HostOp.resolve_write (c : Config) (width : AccessWidth) (off : BitVec 8) (v : Word) :
    HostOp.resolve c (.write width off v) = .write width off v := rfl
@[simp] theorem HostOp.resolve_read (c : Config) (width : AccessWidth) (off : BitVec 8) :
    HostOp.resolve c (.read width off) = .read width off := rfl
@[simp] theorem HostOp.resolve_memWrite (c : Config) (a : Nat) (bytes : List Byte) :
    HostOp.resolve c (.memWrite a bytes) = .memWrite a bytes := rfl
@[simp] theorem HostOp.resolve_memRead (c : Config) (a n : Nat) :
    HostOp.resolve c (.memRead a n) = .memRead a n := rfl
@[simp] theorem HostOp.resolve_reset (c : Config) : HostOp.resolve c .reset = .reset := rfl
@[simp] theorem HostOp.resolve_resetDuring (c : Config) (v : Word) :
    HostOp.resolve c (.resetDuring v) = .resetDuring v := rfl

/-! ### Entering the halted state -/

/-- An outcome passes unless it enters the halted state (R126). -/
theorem faultOnHalt_next {e : Engine} {o : Host.Outcome State Fault Refusal} {t : State} :
    faultOnHalt e o = .next t ↔ o = .next t ∧ (e.abort = true ∨ t.eng.abort = false) := by
  cases o with
  | next u =>
    cases ha : e.abort <;> cases hu : u.eng.abort <;> simp [faultOnHalt, ha, hu] <;> rintro rfl <;> simp_all
  | fault r => simp [faultOnHalt]
  | refused r => simp [faultOnHalt]

/-- What entering it is (R126, D15). -/
theorem faultOnHalt_entered {e : Engine} {o : Host.Outcome State Fault Refusal} {t : State} (h : o = .next t)
    (he : e.abort = false) (ht : t.eng.abort = true) : faultOnHalt e o = .fault .exhaustionAbort := by
  simp [faultOnHalt, h, he, ht]

/-- An operation that does not enter it is left as it is. -/
theorem faultOnHalt_pass {e : Engine} {t : State} (h : e.abort = true ∨ t.eng.abort = false) :
    faultOnHalt e (.next t) = .next t := faultOnHalt_next.2 ⟨rfl, h⟩

@[simp] theorem faultOnHalt_fault (e : Engine) (r : Fault) : faultOnHalt e (.fault r) = .fault r := rfl

/-! ### The host's data memory accesses -/

theorem State.memWriteBytes_spec (bytes : List Byte) (a : Nat) (s : State) :
    ∃ mem, State.memWriteBytes bytes a s = { s with mem := mem } ∧
      (∀ j (h : j < bytes.length), Memory.lookup mem (a + j) = some bytes[j]) ∧
      (∀ x, ¬ (a ≤ x ∧ x < a + bytes.length) → Memory.lookup mem x = Memory.lookup s.mem x) := by
  induction bytes generalizing a s with
  | nil => exact ⟨s.mem, rfl, fun j h => absurd h (Nat.not_lt_zero j), fun _ _ => rfl⟩
  | cons b bs ih =>
    obtain ⟨mem, hrun, hin, hout⟩ := ih (a + 1) (s.memWrite a b)
    refine ⟨mem, hrun, ?_, ?_⟩
    · intro j h
      cases j with
      | zero => rw [Nat.add_zero, hout a (by omega), State.memWrite_mem, Memory.lookup_store_same]; rfl
      | succ j =>
        have := hin j (by simpa using h)
        rw [show a + (j + 1) = a + 1 + j by omega, this]
        rfl
    · intro x hx
      simp only [List.length_cons] at hx
      rw [hout x (by omega), State.memWrite_mem, Memory.lookup_store_other _ _ (by omega)]

theorem State.memWriteBytes_memory (bytes : List Byte) (a top : Nat) (s : State) (hw : Memory.wf s.mem = true)
    (ht : ∀ c ∈ s.mem, c.1 < top) (hr : bytes.length = 0 ∨ a + bytes.length ≤ top) :
    Memory.wf (State.memWriteBytes bytes a s).mem = true ∧ ∀ c ∈ (State.memWriteBytes bytes a s).mem, c.1 < top := by
  induction bytes generalizing a s with
  | nil => exact ⟨hw, ht⟩
  | cons b bs ih =>
    simp only [List.length_cons] at hr
    refine ih _ _ (Memory.wf_store _ _ hw) ?_ (by omega)
    intro c hc
    rcases Memory.mem_store hc with rfl | hc
    · simp only; omega
    · exact ht c hc

/-- The host's read changes the draw counter alone. -/
theorem State.memReadBytes_frame (n a : Nat) (s : State) :
    ∃ d, s.draws ≤ d ∧ (State.memReadBytes n a s).2 = { s with draws := d } := by
  induction n generalizing a s with
  | zero => exact ⟨s.draws, Nat.le_refl _, rfl⟩
  | succ n ih =>
    rcases State.memRead_cases s a with ⟨v, _, h⟩ | ⟨_, h⟩
    · obtain ⟨d, hd, hr⟩ := ih (a + 1) s
      exact ⟨d, hd, by simp only [State.memReadBytes, h, hr]⟩
    · obtain ⟨d, hd, hr⟩ := ih (a + 1) { s with draws := s.draws + 1 }
      simp only at hd
      exact ⟨d, by omega, by simp only [State.memReadBytes, h, hr]⟩

/-- The host's read of bytes that hold values. -/
theorem State.memReadBytes_listed (bytes : List Byte) (a : Nat) (s : State)
    (h : ∀ j (h : j < bytes.length), Memory.lookup s.mem (a + j) = some bytes[j]) :
    State.memReadBytes bytes.length a s = (bytes, s) := by
  induction bytes generalizing a with
  | nil => rfl
  | cons b bs ih =>
    have h0 : s.memRead a = (b, s) := by
      have := h 0 (by simp)
      simp only [Nat.add_zero, List.getElem_cons_zero] at this
      simp [State.memRead, this]
    have hrest := ih (a + 1) fun j hj => by
      have := h (j + 1) (by simpa using hj)
      rw [show a + 1 + j = a + (j + 1) by omega, this]
      rfl
    simp only [List.length_cons, State.memReadBytes, h0, hrest]

/-! ### A CMD write -/

/-- What a CMD write can do (R90, R103): reject an illegal value, or run the command it encodes. -/
theorem cmdWrite_cases {v : Word} {s t : State} (h : cmdWrite v s = .next t) :
    (∃ r, decode v = .error r ∧ t = s.reject (illegalCode s)) ∨ ∃ i, v = encode i ∧ exec i s = .next t := by
  unfold cmdWrite at h
  split at h
  · rename_i i hd
    exact .inr ⟨i, decode_ok hd, h⟩
  · rename_i r hd
    cases h
    exact .inl ⟨r, hd, rfl⟩

/-- What a command can do: it is rejected, or it is accepted. -/
theorem exec_cases {i : Instr} {s t : State} (h : exec i s = .next t) :
    (∃ code, cmdCheck i s = some code ∧ t = s.reject code) ∨ cmdCheck i s = none := by
  cases hc : cmdCheck i s with
  | none => exact .inr rfl
  | some code =>
    rw [exec_rejected hc] at h
    cases h
    exact .inl ⟨code, rfl, rfl⟩

/-! ### The step -/

theorem step_nil {s : State} (h : s.host.script = []) : step s = .next s := by
  simp [step, State.fetch, h]

theorem step_cons {s : State} {op : HostOp} {rest : List HostOp} (h : s.host.script = op :: rest) :
    step s = faultOnHalt s.eng (runHostOp (op.resolve s.cfg) s.advance) := by
  simp [step, State.fetch, h]

/-- A step whose operation leaves `abort` alone or clears it. -/
theorem step_cons_pass {s t : State} {op : HostOp} {rest : List HostOp} (h : s.host.script = op :: rest)
    (ho : runHostOp (op.resolve s.cfg) s.advance = .next t) (ht : s.eng.abort = true ∨ t.eng.abort = false) :
    step s = .next t := by
  rw [step_cons h, ho, faultOnHalt_pass ht]

/-- A register write that is not a CMD write (R111 to R113). -/
theorem step_writeOp {s : State} {r : Slot} {v : Word} {rest : List HostOp} (hr : r ≠ .cmd)
    (h : s.host.script = writeOp r v :: rest) :
    step s = .next { s with
      eng := { s.eng with args := s.eng.args.write r v }
      host := { s.host with script := rest, position := s.host.position + 1 } } := by
  refine step_cons_pass h ?_ (by cases s.eng.abort <;> simp)
  simp only [writeOp, HostOp.resolve_write, runHostOp, accessSlot_word, Slot.ofOffset_offset]
  cases r <;> first | exact absurd rfl hr | simp [writeSlot, State.advance, h]

/-- A command's own operation runs it (R114); the run faults if it halts the engine (R126). -/
theorem step_cmdOp {s : State} {i : Instr} {rest : List HostOp} (h : s.host.script = cmdOp i :: rest) :
    step s = faultOnHalt s.eng
      (exec i { s with host := { s.host with script := rest, position := s.host.position + 1 } }) := by
  rw [step_cons h]
  simp only [cmdOp, writeOp, HostOp.resolve_write, runHostOp, accessSlot_word, Slot.ofOffset_offset, writeSlot, cmdWrite, decode_encode]
  simp [State.advance, h]

/-- The same by offset or by host address: the next operation writes the command to CMD. -/
theorem step_writesCommand {s : State} {i : Instr} (h : s.writesCommand i) :
    step s = faultOnHalt s.eng (exec i s.advance) := by
  obtain ⟨op, rest, hs, hop⟩ : ∃ op rest, s.host.script = op :: rest ∧
      HostOp.resolve s.cfg op = .write .word Slot.cmd.offset (encode i) := by
    unfold State.writesCommand State.nextOp at h
    cases hs : s.host.script with
    | nil => rw [hs] at h; cases h
    | cons op rest => rw [hs] at h; exact ⟨op, rest, rfl, Option.some.inj h⟩
  rw [step_cons hs, hop]
  simp only [runHostOp, accessSlot_word, Slot.ofOffset_offset, writeSlot, cmdWrite, decode_encode]

/-- A run's first step. -/
theorem run_succ (M : Host.Core) (n : Nat) {s t : M.State} (h : M.step s = .next t) :
    M.run (n + 1) s = M.run n t := by
  simp [Host.Core.run, h]

theorem run_step {s t : State} (n : Nat) (h : step s = .next t) :
    Host.Core.run Sys2Proof.core (n + 1) s = Host.Core.run Sys2Proof.core n t := run_succ Sys2Proof.core n h

/-- Several register writes that are no CMD writes, in a row. -/
theorem run_writeOps (n : Nat) (ws : List (Slot × Word)) (s : State) (rest : List HostOp) (hw : ∀ w ∈ ws, w.1 ≠ .cmd)
    (h : s.host.script = ws.map (fun w => writeOp w.1 w.2) ++ rest) :
    Host.Core.run Sys2Proof.core (ws.length + n) s = Host.Core.run Sys2Proof.core n { s with
      eng := { s.eng with args := ws.foldl (fun a w => a.write w.1 w.2) s.eng.args }
      host := { s.host with script := rest, position := s.host.position + ws.length } } := by
  induction ws generalizing s with
  | nil =>
    simp only [List.map_nil, List.nil_append] at h
    simp [← h]
  | cons w ws ih =>
    have hs := step_writeOp (hw w (by simp)) h
    rw [show (w :: ws).length + n = ws.length + n + 1 by simp; omega, run_step _ hs,
      ih _ (fun x hx => hw x (by simp [hx])) rfl]
    simp [Nat.add_assoc, Nat.add_comm 1]

/-- Everything an operation of the host that answers a next state can do. -/
theorem runHostOp_cases {op : HostOp} {s t : State} (h : runHostOp op s = .next t) :
    (∃ i, op = .write .word Slot.cmd.offset (encode i) ∧ exec i s = .next t) ∨
    (t = s.reject (illegalCode s)) ∨
    (∃ r v, t = { s with eng := { s.eng with args := s.eng.args.write r v } }) ∨
    (∃ r, t = s.observe r) ∨
    (∃ a bytes, (bytes.length = 0 ∨ a + bytes.length ≤ s.cfg.memSize) ∧ t = State.memWriteBytes bytes a s) ∨
    (∃ a n, t = (State.memReadBytes n a s).2.observe (.memory (State.memReadBytes n a s).1)) ∨
    (op = .reset ∧ t = s.engineReset) ∨
    (∃ v, op = .resetDuring v ∧ t = s.resetDuring v) := by
  cases op with
  | write width off v =>
    simp only [runHostOp] at h
    split at h
    · rename_i r hr
      obtain ⟨rfl, rfl⟩ := accessSlot_some hr
      by_cases hcmd : r = .cmd
      · subst hcmd
        simp only [writeSlot] at h
        rcases cmdWrite_cases h with ⟨r, _, rfl⟩ | ⟨i, rfl, hi⟩
        · exact .inr (.inl rfl)
        · exact .inl ⟨i, rfl, hi⟩
      · have ht : t = { s with eng := { s.eng with args := s.eng.args.write r v } } := by
          cases r <;> simp only [writeSlot, Host.Outcome.next.injEq] at h <;>
            first | exact h.symm | exact absurd rfl hcmd
        exact .inr (.inr (.inl ⟨r, v, ht⟩))
    · cases h
  | read width off =>
    simp only [runHostOp] at h
    split at h
    · cases h
      exact .inr (.inr (.inr (.inl ⟨_, rfl⟩)))
    · cases h
  | busWrite width addr v => cases h
  | busRead width addr => cases h
  | busMemWrite addr bytes => cases h
  | busMemRead addr n => cases h
  | memWrite a bytes =>
    simp only [runHostOp] at h
    split at h
    · rename_i hr
      cases h
      exact .inr (.inr (.inr (.inr (.inl ⟨a, bytes, (Config.inRange_iff _ _ _).1 hr, rfl⟩))))
    · cases h
  | memRead a n =>
    simp only [runHostOp] at h
    split at h
    · cases h
      exact .inr (.inr (.inr (.inr (.inr (.inl ⟨a, n, rfl⟩)))))
    · cases h
  | reset =>
    cases h
    exact .inr (.inr (.inr (.inr (.inr (.inr (.inl ⟨rfl, rfl⟩))))))
  | resetDuring v =>
    cases h
    exact .inr (.inr (.inr (.inr (.inr (.inr (.inr ⟨v, rfl, rfl⟩))))))

/-- Everything a step that answers a next state can do: nothing, at the end of the script, or what its resolved
operation does, without entering the halted state (R126). -/
theorem step_cases {s t : State} (h : step s = .next t) :
    (s.host.script = [] ∧ t = s) ∨
    ∃ op, s.host.script.head?.map (HostOp.resolve s.cfg) = some op ∧ runHostOp op s.advance = .next t ∧
      (s.eng.abort = true ∨ t.eng.abort = false) := by
  cases hs : s.host.script with
  | nil =>
    rw [step_nil hs] at h
    cases h
    exact .inl ⟨rfl, rfl⟩
  | cons op rest =>
    rw [step_cons hs] at h
    obtain ⟨h1, h2⟩ := faultOnHalt_next.1 h
    exact .inr ⟨op.resolve s.cfg, rfl, h1, h2⟩

/-- A reset during a command resets the engine, and forgets the bytes of an accepted READ or XOR or nothing (R141). -/
theorem State.resetDuring_cases (s : State) (v : Word) :
    (s.resetDuring v = s.engineReset ∧ ∀ i, v = encode i → (i = .read ∨ i = .xor) → cmdCheck i s ≠ none) ∨
    (∃ i, v = encode i ∧ (i = .read ∨ i = .xor) ∧ cmdCheck i s = none ∧
      s.resetDuring v = State.engineReset
        { s with mem := Memory.forget s.mem s.eng.args.dst.toNat s.eng.args.len.toNat }) := by
  unfold State.resetDuring
  split
  · rename_i i hd
    have hv := decode_ok hd
    split
    · rename_i hc
      refine .inr ⟨i, hv, ?_, ?_, rfl⟩
      · cases i <;> simp_all [writesMemory]
      · exact Option.isNone_iff_eq_none.1 (Bool.and_eq_true _ _ ▸ hc).1
    · rename_i hc
      refine .inl ⟨rfl, ?_⟩
      intro k hk hrx hnone
      have : i = k := by
        have := hd
        rw [hk, decode_encode] at this
        cases this
        rfl
      subst this
      rcases hrx with rfl | rfl <;> simp_all [writesMemory]
  · rename_i r hd
    refine .inl ⟨rfl, ?_⟩
    intro k hk
    rw [hk, decode_encode] at hd
    cases hd

/-- Everything that an operation of the host, or none, can do to the engine of `s`. -/
inductive EngineStep (op : Option HostOp) (s : State) : Engine → Prop
  /-- Nothing: the host read, used data memory, or has nothing left to do. -/
  | same : EngineStep op s s.eng
  /-- A CMD write was rejected (R90, R103). -/
  | rejected (code : ErrCode) (halted : code = .halted ↔ s.eng.abort = true)
      (notInit : code = .notInit → s.eng.ready = false) (notOk : code ≠ .ok) (notAbort : code ≠ .exhaustionAbort) :
      EngineStep op s { s.eng with err := code }
  /-- A register other than CMD was written (R111, R113). -/
  | argument (r : Slot) (v : Word) : EngineStep op s { s.eng with args := s.eng.args.write r v }
  /-- Reset (R140, R141). -/
  | reset (hop : op = some .reset ∨ ∃ v, op = some (.resetDuring v)) : EngineStep op s Engine.reset
  /-- INIT ran (R91). -/
  | init (hop : op = some (.write .word Slot.cmd.offset (encode .init))) (check : cmdCheck .init s = none) :
      EngineStep op s s.runInit.eng
  /-- SEEK ran (R94). -/
  | seek (hop : op = some (.write .word Slot.cmd.offset (encode .seek))) (check : cmdCheck .seek s = none) :
      EngineStep op s { s.eng.sought s.eng.args.seekIndex with count := 0, eos := false, err := .ok }
  /-- READ ran (R97). -/
  | read (hop : op = some (.write .word Slot.cmd.offset (encode .read))) (check : cmdCheck .read s = none) (c : Nat)
      (hc : c = min s.eng.args.len.toNat s.eng.bytesLeft) :
      EngineStep op s { s.eng.afterBytes c with
        count := BitVec.ofNat 32 c
        eos := decide (s.eng.bytesLeft < s.eng.args.len.toNat)
        err := .ok }
  /-- XOR ran to its end (R100). -/
  | xor (hop : op = some (.write .word Slot.cmd.offset (encode .xor))) (check : cmdCheck .xor s = none)
      (enough : s.eng.args.len.toNat ≤ s.eng.bytesLeft) :
      EngineStep op s { s.eng.afterBytes s.eng.args.len.toNat with
        count := BitVec.ofNat 32 s.eng.args.len.toNat
        eos := false
        err := .ok }
  /-- XOR aborted (R126). -/
  | xorAbort (hop : op = some (.write .word Slot.cmd.offset (encode .xor))) (check : cmdCheck .xor s = none)
      (short : s.eng.bytesLeft < s.eng.args.len.toNat) :
      EngineStep op s { s.eng.afterBytes s.eng.bytesLeft with
        count := BitVec.ofNat 32 s.eng.bytesLeft
        eos := false
        abort := true
        err := .exhaustionAbort }

/-- What a command does to the engine. -/
theorem exec_engine {i : Instr} {s t : State} (hi : exec i s = .next t) :
    EngineStep (some (.write .word Slot.cmd.offset (encode i))) s t.eng := by
  rcases exec_cases hi with ⟨code, hcode, rfl⟩ | hc
  · obtain ⟨h1, h2, _, h4, h5, _⟩ := cmdCheck_some_code hcode
    exact .rejected code h4 h5 h1 h2
  · cases i with
    | init =>
      rw [exec_init_accepted hc] at hi
      cases hi
      exact .init rfl hc
    | seek =>
      rw [exec_seek_accepted hc] at hi
      cases hi
      exact .seek rfl hc
    | read =>
      obtain ⟨mem, h, _⟩ := exec_read_accepted hc
      rw [h] at hi
      cases hi
      exact .read rfl hc _ rfl
    | xor =>
      obtain ⟨mem, d, h, _⟩ := exec_xor_accepted hc
      rw [h] at hi
      cases hi
      simp only
      split
      · rename_i hlt
        rw [Nat.min_eq_right (Nat.le_of_lt hlt)]
        exact .xorAbort rfl hc hlt
      · rename_i hlt
        rw [Nat.min_eq_left (Nat.not_lt.1 hlt)]
        exact .xor rfl hc (Nat.not_lt.1 hlt)

/-- A command keeps data memory canonical and inside 0..MEM_SIZE-1, accepted, rejected or aborted (R40, R47). -/
theorem exec_memoryInv {i : Instr} {s t : State} (hi : exec i s = .next t) (h : s.memoryInv) : t.memoryInv := by
  obtain ⟨hw, hs⟩ := h
  rcases exec_cases hi with ⟨code, _, rfl⟩ | hc
  · exact ⟨hw, hs⟩
  · cases i with
    | init =>
      rw [exec_init_accepted hc] at hi
      cases hi
      exact ⟨hw, hs⟩
    | seek =>
      rw [exec_seek_accepted hc] at hi
      cases hi
      exact ⟨hw, hs⟩
    | read =>
      have hcfg : t.cfg = s.cfg := by
        obtain ⟨mem, h, _⟩ := exec_read_accepted hc
        rw [h] at hi
        cases hi
        rfl
      rw [State.memoryInv, hcfg]
      exact exec_read_memory hc hi hw hs
    | xor =>
      have hcfg : t.cfg = s.cfg := by
        obtain ⟨mem, d, h, _⟩ := exec_xor_accepted hc
        rw [h] at hi
        cases hi
        simp only
        split <;> rfl
      rw [State.memoryInv, hcfg]
      exact exec_xor_memory hc hi hw hs

/-- What an operation of the host does to the engine. -/
theorem runHostOp_engine {op : HostOp} {s t : State} (h : runHostOp op s = .next t) :
    EngineStep (some op) s t.eng := by
  rcases runHostOp_cases h with ⟨i, rfl, hi⟩ | rfl | ⟨r, v, rfl⟩ | ⟨r, rfl⟩ | ⟨a, bs, hr, rfl⟩ | ⟨a, n, rfl⟩ |
    ⟨rfl, rfl⟩ | ⟨v, rfl, rfl⟩
  · exact exec_engine hi
  · have h0 : illegalCode s = if s.eng.abort = true then .halted else .illegalCmd := rfl
    rw [show (s.reject (illegalCode s)).eng = { s.eng with err := illegalCode s } from rfl]
    refine .rejected _ ?_ ?_ ?_ ?_ <;> rw [h0] <;> split <;> simp_all
  · exact .argument r v
  · exact .same
  · obtain ⟨mem, hrun, _⟩ := State.memWriteBytes_spec bs a s
    rw [hrun]
    exact .same
  · obtain ⟨d, _, hd⟩ := State.memReadBytes_frame n a s
    rw [State.observe_eng, hd]
    exact .same
  · exact .reset (.inl rfl)
  · rcases State.resetDuring_cases s v with ⟨he, _⟩ | ⟨i, _, _, _, he⟩ <;> rw [he] <;> exact .reset (.inr ⟨v, rfl⟩)

/-- A state with another host has the same engine, and a step depends on the host through its operation alone. -/
theorem EngineStep.advance {op : Option HostOp} {s : State} {e : Engine} (h : EngineStep op s.advance e) :
    EngineStep op s e := by
  cases h with
  | same => exact .same
  | rejected code h1 h2 h3 h4 => exact .rejected code h1 h2 h3 h4
  | argument r v => exact .argument r v
  | reset hop => exact .reset hop
  | init hop check => exact .init hop check
  | seek hop check => exact .seek hop check
  | read hop check c hc => exact EngineStep.read (s := s) hop check c hc
  | xor hop check enough => exact .xor hop check enough
  | xorAbort hop check short => exact .xorAbort hop check short

/-- What a step that answers a next state does to the engine. -/
theorem step_engine {s t : State} (h : step s = .next t) :
    EngineStep (s.host.script.head?.map (HostOp.resolve s.cfg)) s t.eng := by
  rcases step_cases h with ⟨_, rfl⟩ | ⟨op, hop, ho, _⟩
  · exact .same
  · rw [hop]
    exact (runHostOp_engine ho).advance

/-- No step that answers a next state enters the halted state (R126, D15). -/
theorem step_abort {s t : State} (h : step s = .next t) (ha : s.eng.abort = false) : t.eng.abort = false := by
  rcases step_cases h with ⟨_, rfl⟩ | ⟨_, _, _, hor⟩
  · exact ha
  · rcases hor with h1 | h1
    · rw [ha] at h1; cases h1
    · exact h1

end Sys2Proof.Machine
end

