-- ==== Sys2Proof/Tests/Slice0.lean ====
section
/-! SUPPORT. Tests: ill-formed lines are refused, command words written out from R60, worked examples of
spec/95_test_vectors.md (their ids stand in the docstrings), and a witness for the hypotheses of every statement of
Certificates/Slice0/Obligations.lean. Expected values come from the spec's files, none from running the model. -/

namespace Sys2Proof.Tests

open Sys2Proof Sys2Proof.Machine

/-! ### Helpers -/

/-- The machine after reset with MEM_SIZE = 0x1000, the size of the spec's vectors, and this script and memory. -/
def platform (script : List HostOp) (mem : Memory := []) : State :=
  { State.reset with
    cfg := { memTop := 0xFFF, regBase := 0x40000000, memBase := 0x80000000 }
    host := { State.reset.host with script := script }
    mem := mem }

/-- Argument registers with these values, the rest 0. -/
def regs (rounds src dst len : Word) (seekHi seekLo : Word := 0) : ArgRegs :=
  { ArgRegs.reset with rounds := rounds, src := src, dst := dst, len := len, seekHi := seekHi, seekLo := seekLo }

/-- The engine after `init KZ, NZ, rounds` with its counter at `n` and its argument registers as given. -/
def zeroKey (rounds : Word) (n : BitVec 64) (args : ArgRegs) : Engine :=
  { Engine.reset with
    m := Matrix.withCtr ArgRegs.reset.initMatrix n
    roundCount := rounds
    ready := true
    args := args }

/-- The same engine with the block before `n` in its buffer, `cursor` bytes of it consumed. -/
def inBlock (rounds : Word) (n : BitVec 64) (cursor : Fin 65) (exhausted : Bool) (args : ArgRegs) : Engine :=
  { zeroKey rounds n args with
    outbuf := (zeroKey rounds n args).blockBytes (n - 1)
    cursor := cursor
    exhausted := exhausted }

/-- That engine on the platform. -/
def running (e : Engine) (script : List HostOp := []) (mem : Memory := []) : State :=
  { platform script mem with eng := e }

/-- An engine that ExhaustionAbort halted, as XR4 leaves it. -/
def haltedEngine : Engine :=
  { inBlock 2 0 64 true (regs 2 0 0x100 70) with abort := true, err := .exhaustionAbort, count := 64 }

def nextOf (o : Host.Outcome State Fault Refusal) : Option State :=
  match o with
  | .next t => some t
  | .fault _ => none
  | .refused _ => none

def faultOf (o : Host.Outcome State Fault Refusal) : Option Fault :=
  match o with
  | .next _ => none
  | .fault r => some r
  | .refused _ => none

/-- STATUS, COUNT, CTR_HI, CTR_LO and CURSOR, the columns of the spec's vectors. -/
def columns (o : Host.Outcome State Fault Refusal) : Option (List Word) :=
  (nextOf o).map fun t => [t.eng.readSlot .status, t.eng.readSlot .count, t.eng.readSlot .ctrHi, t.eng.readSlot .ctrLo,
    t.eng.readSlot .cursor]

/-- `n` bytes of data memory from `a` up, none where a byte holds no value. -/
def bytesAt (o : Host.Outcome State Fault Refusal) (a n : Nat) : Option (List (Option Byte)) :=
  (nextOf o).map fun t => (List.range n).map fun j => Memory.lookup t.mem (a + j)

/-- The host's last reading. -/
def lastReading (o : Host.Outcome State Fault Refusal) : Option Reading := (nextOf o).bind (·.host.readings.head?)

/-! ### Ill-formed lines are refused (R64, R65, R67) -/

theorem test_refuses_wide_value : (ScriptLine.wr .len 0x100000000).ops = none := rfl
theorem test_refuses_reserved_name : (ScriptLine.wr (.reserved 0) 0).ops = none := rfl
theorem test_refuses_reserved_read : (ScriptLine.rd (.reserved 41) none).ops = none := rfl
theorem test_refuses_wide_expectation : (ScriptLine.rd .status (some 0x100000000)).ops = none := rfl
theorem test_refuses_mw_address : (ScriptLine.mw 0x100000000 [0]).ops = none := rfl
theorem test_refuses_mw_without_bytes : (ScriptLine.mw 0 []).ops = none := rfl
theorem test_refuses_mw_wide_byte : (ScriptLine.mw 0 [0, 256]).ops = none := rfl
theorem test_refuses_mr_address : (ScriptLine.mr 0x100000000 0 none).ops = none := rfl
theorem test_refuses_mr_length : (ScriptLine.mr 0 0x100000000 none).ops = none := rfl
theorem test_refuses_mr_expectation_length : (ScriptLine.mr 0 2 (some [1])).ops = none := rfl
theorem test_refuses_mr_wide_byte : (ScriptLine.mr 0 1 (some [256])).ops = none := rfl
theorem test_refuses_short_key : (ScriptLine.init (List.replicate 31 0) (List.replicate 8 0) 20).ops = none := rfl
theorem test_refuses_key_byte :
    (ScriptLine.init (256 :: List.replicate 31 0) (List.replicate 8 0) 20).ops = none := rfl
theorem test_refuses_long_nonce : (ScriptLine.init (List.replicate 32 0) (List.replicate 9 0) 20).ops = none := rfl
theorem test_refuses_nonce_byte :
    (ScriptLine.init (List.replicate 32 0) (256 :: List.replicate 7 0) 20).ops = none := rfl
theorem test_refuses_wide_rounds :
    (ScriptLine.init (List.replicate 32 0) (List.replicate 8 0) 0x100000000).ops = none := rfl
theorem test_refuses_wide_block : (ScriptLine.seek 0x10000000000000000).ops = none := rfl
theorem test_refuses_read_address : (ScriptLine.read 0x100000000 0).ops = none := rfl
theorem test_refuses_read_length : (ScriptLine.read 0 0x100000000).ops = none := rfl
theorem test_refuses_xor_operand :
    (ScriptLine.xor 0x100000000 0 0).ops = none ∧ (ScriptLine.xor 0 0x100000000 0).ops = none ∧
      (ScriptLine.xor 0 0 0x100000000).ops = none := ⟨rfl, rfl, rfl⟩
theorem test_every_command_is_well_formed : ∀ i : Instr, i.wellFormed = true := by intro i; cases i <;> rfl

/-! ### The text of a script (R64, R65, R67, R68) -/

/-- P1 rows 9, 12 and 14: the pairs (0x20, 0x03020100), (0x40, 1) and (0x54, read). -/
theorem test_script_lines :
    readScript "wr NONCE0, 0x03020100\ncmd INIT ; start\nrd cursor == 64".toList =
      some [.write .word 0x20 0x03020100, .write .word 0x40 1, .read .word 0x54] := by decide

/-- R67: `seek b` and `read d, L`. -/
theorem test_script_pseudo_operations :
    readScript "seek 0xFFFFFFFF00000002\nread 0x100, 100".toList =
      some [.write .word 0x2C 2, .write .word 0x30 0xFFFFFFFF, .write .word 0x40 2, .write .word 0x38 0x100,
        .write .word 0x3C 100, .write .word 0x40 3] := by decide

/-- R64: `mw` and `mr`; R67: `xor s, d, L`. -/
theorem test_script_memory_operations :
    readScript "mw 0x000, 41 fF\nmr 0x000, 2 == 41 ff\nxor 1, 2, 3".toList =
      some [.memWrite 0 [0x41, 0xFF], .memRead 0 2, .write .word 0x34 1, .write .word 0x38 2, .write .word 0x3C 3,
        .write .word 0x40 4] := by decide

/-- R64, R65: a value of more than 32 bits, another name for a command, an unknown register. -/
theorem test_script_refusals :
    readScript "wr LEN, 0x100000000".toList = none ∧ readScript "cmd STOP".toList = none ∧
      readScript "cmd init".toList = none ∧ readScript "rd KEY8".toList = none := by decide

/-! ### Decoding (R60, R61, R62): words written out bit by bit from the encoding column of R60 -/

theorem test_decode_init : decode 0b00000000000000000000000000000001#32 = .ok .init := rfl
theorem test_decode_seek : decode 0b00000000000000000000000000000010#32 = .ok .seek := rfl
theorem test_decode_read : decode 0b00000000000000000000000000000011#32 = .ok .read := rfl
theorem test_decode_xor : decode 0b00000000000000000000000000000100#32 = .ok .xor := rfl
/-- ER1, ER2 and R62: 0, 5, 6, 7 and a value with a high bit set are no commands. -/
theorem test_decode_illegal :
    decode 0 = .error (.illegalCmd 0) ∧ decode 5 = .error (.illegalCmd 5) ∧ decode 6 = .error (.illegalCmd 6) ∧
      decode 7 = .error (.illegalCmd 7) ∧ decode 0x101 = .error (.illegalCmd 0x101) ∧
      decode 0x80000001 = .error (.illegalCmd 0x80000001) := ⟨rfl, rfl, rfl, rfl, rfl, rfl⟩
/-- R44: lane k carries bits [8k+7:8k]; R63: one 32-bit word, no other length. -/
theorem test_decode_lanes :
    decodeLanes [0x04, 0x00, 0x00, 0x00] = .ok .xor ∧
      decodeLanes [0x00, 0x00, 0x00, 0x04] = .error (.illegalCmd 0x04000000) ∧
      decodeLanes [0x01] = .error (.notOneWord 1) := ⟨rfl, rfl, rfl⟩

/-! ### The block function (95_test_vectors.md sections 3.1 to 3.4) -/

/-- QR2: every addition carries out of bit 31. -/
theorem test_quarter_round_ones :
    quarterRoundWords 0xFFFFFFFF 0xFFFFFFFF 0xFFFFFFFF 0xFFFFFFFF =
      (0xF0000FFD, 0x88790878, 0x0110FDEF, 0x010FFDF0) := by decide

/-- QR5 (GK1). -/
theorem test_quarter_round :
    quarterRoundWords 0x11111111 0x01020304 0x9B8D6F43 0x01234567 =
      (0xEA2A92F4, 0xCB1CF8CE, 0x4581472E, 0x5881C4BB) := by decide

/-- RN1. -/
theorem test_column_round : columnRound ArgRegs.reset.initMatrix =
    #v[0xb7877feb, 0x16526ab4, 0xa0f85005, 0xb1d26bcb, 0x4a7d5c86, 0xfae0ea21, 0x66e11e68, 0xe3a851a6,
       0x5a83fd3f, 0xa0c7c792, 0xf75be0ef, 0x0b7556f4, 0xe21e9bcf, 0x3c599472, 0xca29678d, 0xa600ebd4] := by
  decide

/-- RN2. -/
theorem test_double_round : doubleRound ArgRegs.reset.initMatrix =
    #v[0xe45fd249, 0x1bb820a6, 0xe31a88ea, 0xe667a9fe, 0x2a3bf673, 0x86bf4098, 0x460b500a, 0xfa169886,
       0x538dca0e, 0x0c439641, 0x00fa16bc, 0x8a08812a, 0x6bbf8b09, 0xc33013d6, 0xbb9f9849, 0x87c62165] := by
  decide

/-- GK4a, GK4b and GK2: 8, 12 and 20 rounds with a zero key and nonce, block 0. -/
theorem test_published_blocks :
    ((zeroKey 8 0 ArgRegs.reset).blockBytes 0).toList.take 4 = [0x3e, 0x00, 0xef, 0x2f] ∧
      ((zeroKey 12 0 ArgRegs.reset).blockBytes 0).toList.take 4 = [0x9b, 0xf4, 0x9a, 0x6a] ∧
      ((zeroKey 20 0 ArgRegs.reset).blockBytes 0).toList.take 4 = [0x76, 0xb8, 0xe0, 0xad] := by decide +kernel

/-- BF8: 8 rounds, key 00..1f, nonce 00..07, the first bytes of block 0. -/
theorem test_block_bytes :
    (Engine.blockBytes { Engine.reset with
        m := ArgRegs.initMatrix { ArgRegs.reset with
          key := Vector.ofFn (keyWord (Vector.ofFn fun j => BitVec.ofNat 8 j.val))
          nonce0 := nonceWord (Vector.ofFn fun j => BitVec.ofNat 8 j.val) 0
          nonce1 := nonceWord (Vector.ofFn fun j => BitVec.ofNat 8 j.val) 1 }
        roundCount := 8 } 0).toList.take 16 =
      [0x40, 0xe1, 0xaa, 0xea, 0x1c, 0x84, 0x3b, 0xaa, 0x28, 0xb1, 0x8e, 0xb7, 0x28, 0xfe, 0xc0, 0x5d] := by
  decide +kernel

/-- CI3 and CI7. -/
theorem test_counter_increment :
    (zeroKey 8 0x00000000FFFFFFFF ArgRegs.reset).ctrInc.ctr = 0x0000000100000000 ∧
      (zeroKey 8 0x00000000FFFFFFFF ArgRegs.reset).ctrInc.exhausted = false ∧
      (zeroKey 8 0xFFFFFFFFFFFFFFFF ArgRegs.reset).ctrInc.ctr = 0 ∧
      (zeroKey 8 0xFFFFFFFFFFFFFFFF ArgRegs.reset).ctrInc.exhausted = true := by decide

/-! ### The commands (95_test_vectors.md sections 3.5 to 3.9), one step each -/

/-- IN4: 0xFFFFFFFE rounds, the largest accepted. IN6: an odd count is rejected. -/
theorem test_init :
    columns (exec .init { platform [] with eng := { Engine.reset with args := regs 0xFFFFFFFE 0 0 0 } }) =
        some [0x00000001, 0, 0, 0, 64] ∧
      columns (exec .init { platform [] with eng := { Engine.reset with args := regs 7 0 0 0 } }) =
        some [0x00000300, 0, 0, 0, 64] := by decide

/-- IN11: the matrix of KS, NS. -/
theorem test_init_matrix :
    ArgRegs.initMatrix { ArgRegs.reset with
      key := Vector.ofFn (keyWord (Vector.ofFn fun j => BitVec.ofNat 8 j.val))
      nonce0 := nonceWord (Vector.ofFn fun j => BitVec.ofNat 8 j.val) 0
      nonce1 := nonceWord (Vector.ofFn fun j => BitVec.ofNat 8 j.val) 1 } =
    #v[0x61707865, 0x3320646e, 0x79622d32, 0x6b206574, 0x03020100, 0x07060504, 0x0b0a0908, 0x0f0e0d0c,
       0x13121110, 0x17161514, 0x1b1a1918, 0x1f1e1d1c, 0x00000000, 0x00000000, 0x03020100, 0x07060504] := by
  decide

/-- SK4's registers (with 8 rounds): the counter one past the block sought. -/
theorem test_seek :
    columns (exec .seek (running (zeroKey 8 0 (regs 8 0 0 0 0x01234567 0x89ABCDEF)))) =
      some [0x00000001, 0, 0x01234567, 0x89ABCDF0, 0] := by decide

/-- SK5: seeking to the last block exhausts the stream; SK7: NOT_INIT. -/
theorem test_seek_last :
    columns (exec .seek (running (zeroKey 8 0 (regs 8 0 0 0 0xFFFFFFFF 0xFFFFFFFF)))) = some [0x00000003, 0, 0, 0, 0] ∧
      columns (exec .seek (platform [])) = some [0x00000200, 0, 0, 0, 64] := by decide

/-- RD2's registers (with 8 rounds, so GK4a's first byte): one byte, one NEXT. -/
theorem test_read :
    columns (exec .read (running (zeroKey 8 0 (regs 8 0 0x100 1)))) = some [0x00000001, 1, 0, 1, 1] ∧
      bytesAt (exec .read (running (zeroKey 8 0 (regs 8 0 0x100 1)))) 0xFF 3 = some [none, some 0x3e, none] := by
  decide +kernel

/-- RD10's registers: 54 bytes remain of the last block, 100 are asked for; nothing past the 54th is written. -/
theorem test_read_short :
    columns (exec .read (running (inBlock 2 0 10 true (regs 2 0 0x100 100)))) = some [0x00000007, 54, 0, 0, 64] ∧
      bytesAt (exec .read (running (inBlock 2 0 10 true (regs 2 0 0x100 100)))) 0x136 2 = some [none, none] := by
  decide

/-- XR3: overlapping ranges, DST = SRC + 1, each byte reading the one written before it. -/
theorem test_xor_overlap :
    bytesAt (exec .xor (running (zeroKey 20 0 (regs 20 0x000 0x001 4)) []
      [(0, 0x11), (1, 0x22), (2, 0x33), (3, 0x44), (4, 0x55), (5, 0x66), (6, 0x77), (7, 0x88)])) 0 8 =
    some [some 0x11, some 0x67, some 0xdf, some 0x3f, some 0x92, some 0x66, some 0x77, some 0x88] := by decide +kernel

/-- XR4's registers: ExhaustionAbort at byte 64. A source byte that holds no value is drawn, and XOR goes on (R41). -/
theorem test_xor_abort :
    columns (exec .xor (running (inBlock 2 0 0 true (regs 2 0x000 0x100 70)) []
      ((List.range 70).map fun j => (j, BitVec.ofNat 8 j)))) = some [0x0000060B, 64, 0, 0, 64] ∧
      (nextOf (exec .xor (running (inBlock 2 1 63 false (regs 2 0 0x100 1))))).map (·.draws) = some 1 := by
  decide

/-- XR4's run: R126 and D15 have the model fault on entering the halted state. -/
theorem test_xor_abort_faults_the_run :
    faultOf (step (running (inBlock 2 0 0 true (regs 2 0x000 0x100 70)) [cmdOp .xor]
      ((List.range 70).map fun j => (j, BitVec.ofNat 8 j)))) = some .exhaustionAbort := by decide

/-- ER2, ER3, ER4: the priority of the checks. XR5, XR6: HALTED before everything. -/
theorem test_priority :
    columns (cmdWrite 0x101 (platform [])) = some [0x00000100, 0, 0, 0, 64] ∧
      columns (cmdWrite 3 { platform [] with eng := { Engine.reset with args := regs 0 0 0xFFFFFFF0 0x100 } }) =
        some [0x00000200, 0, 0, 0, 64] ∧
      columns (cmdWrite 2 (running haltedEngine)) = some [0x0000050B, 64, 0, 0, 64] ∧
      columns (cmdWrite 0x77 (running haltedEngine)) = some [0x0000050B, 64, 0, 0, 64] := by decide

/-- ER5, ER6, ER7, ER9: the range check at its edge, with LEN = 0, and without wrapping. -/
theorem test_range :
    columns (exec .read (running (zeroKey 2 0 (regs 2 0 0xFF8 9)))) = some [0x00000401, 0, 0, 0, 64] ∧
      columns (exec .read (running (zeroKey 2 0 (regs 2 0 0xFF8 8)))) = some [0x00000001, 8, 0, 1, 8] ∧
      columns (exec .read (running (zeroKey 2 0 (regs 2 0 0xFFFFFFFF 0)))) = some [0x00000001, 0, 0, 0, 64] ∧
      columns (exec .xor (running (zeroKey 2 0 (regs 2 0 0xFFFFFFFF 2)))) = some [0x00000401, 0, 0, 0, 64] := by
  decide

/-! ### The window, data memory and reset (95_test_vectors.md sections 3.10, 3.11), one step each -/

/-- RG2: KEY3 is write-only. RG3: NONCE1 reads back. -/
theorem test_register_reads :
    lastReading (step { platform [.read .word 0x0C] with
        eng := { Engine.reset with args := ArgRegs.reset.write (.key 3) 0xDEADBEEF } }) = some (.register 0) ∧
      lastReading (step { platform [.read .word 0x24] with
        eng := { Engine.reset with args := ArgRegs.reset.write .nonce1 0x07060504 } }) = some (.register 0x07060504) := by
  decide

/-- RG4, RG5: writes to CURSOR and to the reserved offset 0x58 are ignored. -/
theorem test_ignored_writes :
    columns (step (platform [.write .word 0x54 1])) = some [0, 0, 0, 0, 0x40] ∧
      (nextOf (step (platform [.write .word 0x58 1]))).map (·.eng) = some Engine.reset := by decide

/-- RG6: a byte write to 0x20, and a 32-bit read at 0x22. R115: an access wider than 32 bits (log 9). -/
theorem test_bus_errors :
    step (platform [.write .byte 0x20 1]) = .fault .busError ∧ step (platform [.read .word 0x22]) = .fault .busError ∧
      step (platform [.read .wide 0x20]) = .fault .busError := ⟨rfl, rfl, rfl⟩

/-- R10, R59: NONCE0 at REG_BASE + 0x20, with REG_BASE = 0x40000000, and the addresses next to the window. -/
theorem test_host_addresses :
    (nextOf (step (platform [.busWrite .word 0x40000020 7]))).map (·.eng.args.nonce0) = some 7 ∧
      step (platform [.busRead .word 0x40000100]) = .fault .unmappedAddress ∧
      step (platform [.busRead .word 0x3FFFFFFC]) = .fault .unmappedAddress := ⟨rfl, rfl, rfl⟩

/-- R50: data memory byte 1, with byte 0 at host address 0x80000000, and the address below it. -/
theorem test_host_memory_addresses :
    bytesAt (step (platform [.busMemWrite 0x80000001 [0xAB]])) 0 3 = some [none, some 0xAB, none] ∧
      step (platform [.busMemRead 0x7FFFFFFF 1]) = .fault .unmappedAddress := ⟨rfl, rfl⟩

/-- R40: the last byte of data memory, and the first address past it. -/
theorem test_memory_edges :
    bytesAt (step (platform [.memWrite 0xFFF [0xAB]])) 0xFFF 1 = some [some 0xAB] ∧
      step (platform [.memWrite 0xFFF [0xAB, 0xCD]]) = .fault .memoryOutOfRange := ⟨rfl, rfl⟩

/-- RS1: reset leaves the halted state and resets the argument registers; data memory stays. -/
theorem test_reset :
    (nextOf (step (running haltedEngine [.reset] [(0x100, 0x76)]))).map (fun t => (t.eng, t.mem)) =
      some (Engine.reset, [(0x100, 0x76)]) := by decide

/-- R141: reset while READ runs; the bytes of its range lose their values, the others keep them. -/
theorem test_reset_during :
    bytesAt (step (running (zeroKey 2 0 (regs 2 0 0x100 2)) [.resetDuring 3] [(0x100, 1), (0x101, 2), (0x102, 3)]))
      0x100 3 = some [none, none, some 3] := by decide

/-- The first step after reset with a word placed (log 1): INIT finds ROUNDS = 0 (RS2). -/
theorem test_fetch_word :
    (nextOf (step (State.reset.withFetchWord 32 1))).map (·.eng.readSlot .status) = some 0x00000300 := by
  decide

/-! ### Witnesses: the hypotheses of each statement hold together, clause by clause, at the edges of their ranges -/

/-- An engine in the middle of block `n - 1` meets the invariants. -/
theorem inBlock_flagsInv (rounds : Word) (n : BitVec 64) (cursor : Fin 65) (x : Bool) (args : ArgRegs) (h0 : rounds ≠ 0)
    (he : rounds.toNat % 2 = 0) (hx : x = true → n = 0) (hw : cursor.val < 64 → n = 0 → x = true) :
    (inBlock rounds n cursor x args).FlagsInv := by
  have hc : Matrix.ctr (inBlock rounds n cursor x args).m = n := Matrix.ctr_withCtr _ _
  constructor
  · intro _
    simp only [inBlock, zeroKey]
    rw [Matrix.withCtr_getElem_other _ _ 0 (by decide) (by decide) (by decide),
      Matrix.withCtr_getElem_other _ _ 1 (by decide) (by decide) (by decide),
      Matrix.withCtr_getElem_other _ _ 2 (by decide) (by decide) (by decide),
      Matrix.withCtr_getElem_other _ _ 3 (by decide) (by decide) (by decide)]
    exact ⟨rfl, rfl, rfl, rfl⟩
  · exact fun _ => ⟨h0, he⟩
  · intro h; cases h
  · exact fun h => ⟨rfl, hc.trans (hx h)⟩
  · exact fun h h' => hw h (hc.symm.trans h')
  · intro h; cases h
  · intro h; cases h
  · constructor
    · intro h; cases h
    · rintro (h | h) <;> cases h
  · intro h; cases h

theorem inBlock_bufferInv (rounds : Word) (n : BitVec 64) (cursor : Fin 65) (x : Bool) (args : ArgRegs) :
    (inBlock rounds n cursor x args).bufferInv := by
  intro _
  refine ⟨rfl, ?_⟩
  have hc : (inBlock rounds n cursor x args).ctr = n := Matrix.ctr_withCtr _ _
  rw [hc]
  simp [inBlock, Engine.blockBytes, zeroKey]

/-- The witness state of the invariants: byte 63 of block 0 is next, then block 1; one byte of memory is listed. -/
def demo (len : Word) (script : List HostOp) : State :=
  running (inBlock 2 1 63 false (regs 2 0xFFF 0xFFF len)) script [(0xFFF, 0x41)]

theorem demo_inv (len : Word) (script : List HostOp) : (demo len script).Inv :=
  ⟨⟨rfl, by simp [demo, running, platform, Config.memSize]⟩,
    inBlock_flagsInv 2 1 63 false _ (by decide) (by decide) (by decide) (by decide), inBlock_bufferInv 2 1 63 false _⟩

theorem demo_steps : ∃ t, step (demo 1 [cmdOp .read]) = .next t := by
  obtain ⟨mem, h, _⟩ := exec_read_accepted (s := (demo 1 [cmdOp .read]).advance) (by decide)
  exact ⟨_, h⟩

theorem witness_ResetRestoresEveryEngineElement :
    ∃ (s : State) (rest : List HostOp), s.host.script = .reset :: rest ∧ s.eng.abort = true :=
  ⟨running haltedEngine [.reset], [], rfl, rfl⟩

/-- An accepted READ cut short (its first and last byte), and a rejected one. -/
theorem witness_ResetDuringCommandLosesOnlyTheTargetBytes :
    ∃ s s' : State, s.host.script = .resetDuring (encode .read) :: [] ∧ cmdCheck .read s = none ∧
      s.eng.args.dst.toNat = 0xFFE ∧ s.eng.args.len.toNat = 2 ∧
      s'.host.script = .resetDuring (encode .xor) :: [] ∧
      ∀ i, (i = .read ∨ i = .xor) → encode .xor = encode i → cmdCheck i s' ≠ none :=
  ⟨running (zeroKey 2 0 (regs 2 0 0xFFE 2)) [.resetDuring 3], platform [.resetDuring 4], rfl, by decide, rfl, rfl,
    rfl, by rintro i (rfl | rfl) <;> decide⟩

theorem witness_EmptyScriptIdles : ∃ s : State, s.host.script = [] := ⟨State.reset, rfl⟩

theorem witness_StepKeepsMemoryCanonical :
    ∃ s t : State, s.memoryInv ∧ s.mem ≠ [] ∧ step s = .next t := by
  obtain ⟨t, h⟩ := demo_steps
  exact ⟨_, t, (demo_inv 1 _).memory, by decide, h⟩

theorem witness_StepKeepsFlagsConsistent : ∃ s t : State, s.eng.FlagsInv ∧ s.eng.ready = true ∧ step s = .next t := by
  obtain ⟨t, h⟩ := demo_steps
  exact ⟨_, t, (demo_inv 1 _).flags, rfl, h⟩

theorem witness_StepKeepsBufferedBlock : ∃ s t : State, s.eng.bufferInv ∧ s.eng.cursor.val < 64 ∧ step s = .next t := by
  obtain ⟨t, h⟩ := demo_steps
  exact ⟨_, t, (demo_inv 1 _).buffer, by decide, h⟩

/-- A READ in the middle of a block. The aborting XOR is `witness_ReadAndXorMemoryFrame`'s. -/
theorem witness_CommandsKeepTheInvariant :
    ∃ s t : State, exec .read s = .next t ∧ s.memoryInv ∧ s.eng.FlagsInv ∧ s.eng.bufferInv ∧ s.eng.cursor.val < 64 := by
  obtain ⟨mem, h, _⟩ := exec_read_accepted (s := demo 1 []) (by decide)
  exact ⟨_, _, h, (demo_inv 1 _).memory, (demo_inv 1 _).flags, (demo_inv 1 _).buffer, by decide⟩

/-- The last clause at its edges: 0 and 5. -/
theorem witness_DecodeAcceptsExactlyFourWords :
    ∀ v ∈ [0#32, 5], v ≠ 1 ∧ v ≠ 2 ∧ v ≠ 3 ∧ v ≠ 4 := by simp

theorem witness_CommandWordsRoundTrip : Instr.wellFormed .xor = true := rfl

/-- The last named register, the first and last reserved slot, and a misaligned offset. -/
theorem witness_WindowOffsetsNameTheirSlots :
    Slot.ofOffset 0x54 = some .cursor ∧ Slot.ofOffset 0x58 = some (.reserved 0) ∧
      Slot.ofOffset 0xFC = some (.reserved 41) ∧ Slot.ofOffset 0xFF = none := ⟨rfl, rfl, rfl, rfl⟩

theorem witness_StepRunsTheDecodedCommand :
    ∃ (s : State) (v : Word) (i : Instr), s.host.script = .write .word 0x40 v :: [] ∧ decode v = .ok i :=
  ⟨platform [.write .word 0x40 4], 4, .xor, rfl, rfl⟩

theorem witness_FetchWordRunsNext : decodeTableWord 32 3 = some .read := rfl

/-- While halted and not. -/
theorem witness_IllegalCommandWritesOnlyErr :
    ∃ s s' : State, s.host.script = .write .word 0x40 5 :: [] ∧ s'.host.script = .write .word 0x40 5 :: [] ∧
      s.eng.abort = true ∧ s'.eng.abort = false ∧ (5 : Word) ≠ 1 ∧ (5 : Word) ≠ 2 ∧ (5 : Word) ≠ 3 ∧ (5 : Word) ≠ 4 :=
  ⟨running haltedEngine [.write .word 0x40 5], platform [.write .word 0x40 5], rfl, rfl, rfl, rfl, by decide, by decide,
    by decide, by decide⟩

/-- Accepted with the smallest and the largest round count; rejected with 0 and the largest odd one; halted. -/
theorem witness_InitBuildsTheCipherState :
    (∀ r ∈ [2#32, 0xFFFFFFFE], (zeroKey 2 0 (regs r 0 0 0)).abort = false ∧ r ≠ 0 ∧ r.toNat % 2 = 0) ∧
      (∀ r ∈ [0#32, 0xFFFFFFFF], (zeroKey 2 0 (regs r 0 0 0)).abort = false ∧ (r = 0 ∨ r.toNat % 2 = 1)) ∧
      haltedEngine.abort = true := by
  refine ⟨?_, ?_, rfl⟩ <;> simp <;> exact ⟨rfl, rfl⟩

/-- Accepted, before INIT, halted. -/
theorem witness_SeekGeneratesTheSoughtBlock :
    ((demo 1 []).eng.abort = false ∧ (demo 1 []).eng.ready = true) ∧
      (Engine.reset.abort = false ∧ Engine.reset.ready = false) ∧ haltedEngine.abort = true :=
  ⟨⟨rfl, rfl⟩, ⟨rfl, rfl⟩, rfl⟩

/-- Accepted with LEN = 0 and at the last byte of data memory; one byte too long; before INIT; halted. -/
theorem witness_ReadWritesTheUpcomingBytes :
    ((demo 0 []).eng.abort = false ∧ (demo 0 []).eng.ready = true ∧ (demo 0 []).eng.args.len.toNat = 0) ∧
      ((demo 1 []).eng.ready = true ∧
        (demo 1 []).eng.args.dst.toNat + (demo 1 []).eng.args.len.toNat = (demo 1 []).cfg.memSize) ∧
      ((demo 2 []).eng.args.len.toNat ≠ 0 ∧
        (demo 2 []).cfg.memSize + 1 = (demo 2 []).eng.args.dst.toNat + (demo 2 []).eng.args.len.toNat) ∧
      Engine.reset.ready = false ∧ haltedEngine.abort = true := by decide

/-- Accepted with enough of the stream left, and with one byte too few; SRC out of range; DST out of range; before
INIT; halted. The inner clause holds of byte 0. -/
theorem witness_XorAppliesTheUpcomingBytes :
    ((demo 1 []).eng.abort = false ∧ (demo 1 []).eng.ready = true ∧
        (demo 1 []).eng.args.src.toNat + (demo 1 []).eng.args.len.toNat = (demo 1 []).cfg.memSize ∧
        (demo 1 []).eng.args.dst.toNat + (demo 1 []).eng.args.len.toNat = (demo 1 []).cfg.memSize ∧
        (demo 1 []).eng.args.len.toNat ≤ (demo 1 []).eng.bytesLeft) ∧
      ((inBlock 2 0 63 true (regs 2 0 0x100 2)).ready = true ∧ (inBlock 2 0 63 true (regs 2 0 0x100 2)).bytesLeft = 1 ∧
        (inBlock 2 0 63 true (regs 2 0 0x100 2)).args.len.toNat = 2) ∧
      ((regs 2 0x1000 0 1).len.toNat ≠ 0 ∧ (platform []).cfg.memSize < (regs 2 0x1000 0 1).src.toNat + 1) ∧
      ((regs 2 0 0x1000 1).len.toNat ≠ 0 ∧ (platform []).cfg.memSize < (regs 2 0 0x1000 1).dst.toNat + 1) ∧
      Engine.reset.ready = false ∧ haltedEngine.abort = true := by decide

theorem witness_RejectedCommandWritesOnlyErr :
    ∃ t, cmdWrite 5 (platform []) = .next t ∧ t.eng.err ≠ .ok ∧ t.eng.err ≠ .exhaustionAbort :=
  ⟨(platform []).reject .illegalCmd, rfl, by decide, by decide⟩

/-- The clauses in order: NOT_INIT, INIT sets `ready`, reset clears it, INIT answers OK. -/
theorem witness_ReadyStandsFromInitToReset :
    (Instr.seek ≠ .init ∧ (platform []).eng.abort = false ∧ (platform []).eng.ready = false) ∧
      (∃ s t : State, step s = .next t ∧ s.eng.ready = false ∧ t.eng.ready = true) ∧
      (∃ s t : State, step s = .next t ∧ s.eng.ready = true ∧ t.eng.ready = false) ∧
      ∃ s t : State, exec .init s = .next t ∧ t.eng.err = .ok :=
  ⟨⟨by decide, rfl, rfl⟩,
    ⟨{ platform [cmdOp .init] with eng := { Engine.reset with args := regs 2 0 0 0 } }, _, rfl, rfl, rfl⟩,
    ⟨running (zeroKey 2 0 (regs 2 0 0 0)) [.reset], _, rfl, rfl, rfl⟩,
    ⟨{ platform [] with eng := { Engine.reset with args := regs 2 0 0 0 } }, _, rfl, rfl⟩⟩

/-- READ one byte past the end, XOR past the end of each range, and LEN = 0 with an address past the end. -/
theorem witness_RangeIsCheckedBeforeAnythingRuns :
    ((demo 2 []).eng.args.len.toNat ≠ 0 ∧ (demo 2 []).eng.abort = false ∧ (demo 2 []).eng.ready = true ∧
        (demo 2 []).cfg.memSize < (demo 2 []).eng.args.dst.toNat + (demo 2 []).eng.args.len.toNat) ∧
      (platform []).cfg.memSize < (regs 2 0x1000 0 1).src.toNat + (regs 2 0x1000 0 1).len.toNat ∧
      (platform []).cfg.memSize < (regs 2 0 0x1000 1).dst.toNat + (regs 2 0 0x1000 1).len.toNat ∧
      ∃ t, (demo 0 []).eng.args.len = 0 ∧ exec .read (demo 0 []) = .next t :=
  ⟨by decide, by decide, by decide, _, rfl, rfl⟩

/-- The clauses in order: a CMD write, a read, a register write, a reset. -/
theorem witness_HaltedUntilReset :
    (running haltedEngine [.write .word 0x40 1]).eng.abort = true ∧
      (∃ rest, (running haltedEngine [.read .word Slot.status.offset]).host.script =
        .read .word Slot.status.offset :: rest) ∧
      (∃ rest, (running haltedEngine [.write .word Slot.len.offset 1]).host.script =
        .write .word Slot.len.offset 1 :: rest) ∧
      ∃ t, step (running haltedEngine [.reset]) = .next t ∧ haltedEngine.abort = true ∧ t.eng.abort = false :=
  ⟨rfl, ⟨[], rfl⟩, ⟨[], rfl⟩, _, rfl, rfl, rfl⟩

/-- The engine at the end of the stream, one byte asked for at the end of data memory; the step and `exec` of it; and a
step that goes on. -/
theorem witness_EnteringTheHaltedStateFaults :
    ∃ s : State, s.writesCommand .xor ∧ s.eng.args.len.toNat = 1 ∧ s.eng.abort = false ∧ s.eng.ready = true ∧
      s.eng.args.src.toNat + 1 = s.cfg.memSize ∧ s.eng.args.dst.toNat + 1 = s.cfg.memSize ∧ s.eng.bytesLeft < 1 ∧
      step s = .fault .exhaustionAbort ∧ (∃ t, exec .xor s = .next t ∧ t.eng.abort = true) ∧
      ∃ t, step (platform [.reset]) = .next t ∧ (platform [.reset]).eng.abort = false :=
  ⟨running (inBlock 2 0 64 true (regs 2 0xFFF 0xFFF 1)) [cmdOp .xor], rfl, rfl, rfl, rfl, by decide,
    by decide, by decide, rfl, ⟨_, rfl, rfl⟩, _, rfl, rfl⟩

theorem witness_CommandFrames : ∃ s t : State, exec .seek s = .next t ∧ t.eng.err = .ok :=
  ⟨running (zeroKey 2 0 (regs 2 0 0 0)), _, rfl, rfl⟩

/-- Accepted (one byte), rejected, aborted. -/
theorem witness_ReadAndXorMemoryFrame :
    (∃ t, exec .read (demo 1 []) = .next t ∧ t.eng.err = .ok ∧ t.eng.count = 1) ∧
      (∃ t, exec .read (demo 2 []) = .next t ∧ t.eng.err ≠ .ok ∧ t.eng.err ≠ .exhaustionAbort) ∧
      ∃ t, exec .xor (running (inBlock 2 0 64 true (regs 2 0 0 1))) = .next t ∧ t.eng.err = .exhaustionAbort := by
  refine ⟨?_, ⟨_, rfl, by decide, by decide⟩, ⟨_, rfl, rfl⟩⟩
  obtain ⟨mem, h, _⟩ := exec_read_accepted (s := demo 1 []) (by decide)
  exact ⟨_, h, rfl, by simp only [State.complete_count]; decide⟩

theorem witness_ZeroLengthDoesNothing :
    (demo 0 []).eng.abort = false ∧ (demo 0 []).eng.ready = true ∧ (demo 0 []).eng.args.len = 0 := ⟨rfl, rfl, rfl⟩

theorem witness_ReadAtTheEndOfTheStream :
    ∃ s : State, s.eng.abort = false ∧ s.eng.ready = true ∧ s.eng.exhausted = true ∧ s.eng.cursor.val = 64 ∧
      s.eng.args.len ≠ 0 ∧ s.eng.args.dst.toNat + s.eng.args.len.toNat = s.cfg.memSize :=
  ⟨running (inBlock 2 0 64 true (regs 2 0 0xFFF 1)), rfl, rfl, rfl, rfl, by decide, by decide⟩

theorem witness_QuarterRoundMixesItsFourWords :
    (0 : Fin 16) ≠ 4 ∧ (0 : Fin 16) ≠ 8 ∧ (0 : Fin 16) ≠ 12 ∧ (4 : Fin 16) ≠ 8 ∧ (4 : Fin 16) ≠ 12 ∧
      (8 : Fin 16) ≠ 12 := by decide

theorem witness_DisjointQuarterRoundsCommute :
    [(0 : Fin 16), 4, 8, 12].Nodup ∧ [(1 : Fin 16), 5, 9, 13].Nodup ∧
      ∀ i ∈ [(0 : Fin 16), 4, 8, 12], i ∉ [(1 : Fin 16), 5, 9, 13] := by decide

theorem witness_NextGeneratesTheBlockOfTheCounter :
    (inBlock 2 0 64 true (regs 2 0 0 0)).exhausted = true ∧
      (zeroKey 2 0xFFFFFFFFFFFFFFFF (regs 2 0 0 0)).exhausted = false := ⟨rfl, rfl⟩

/-- The last byte of the buffer; an empty buffer with a block left; an empty buffer at the end of the stream. -/
theorem witness_KsByteRefillsLazily :
    (demo 1 []).eng.cursor.val < 64 ∧
      (∃ e', (zeroKey 2 0 (regs 2 0 0 0)).cursor.val = 64 ∧ (zeroKey 2 0 (regs 2 0 0 0)).next = some e') ∧
      (inBlock 2 0 64 true (regs 2 0 0 0)).cursor.val = 64 ∧ (inBlock 2 0 64 true (regs 2 0 0 0)).next = none :=
  ⟨by decide, ⟨_, rfl, rfl⟩, rfl, rfl⟩

/-- The last byte of the buffer, and the first byte of the block after it. -/
theorem witness_KsByteServesTheUpcomingByte :
    (∃ b e', (demo 1 []).eng.ksByte = some (b, e')) ∧ ∃ b e', (zeroKey 2 0 (regs 2 0 0 0)).ksByte = some (b, e') :=
  ⟨⟨_, _, rfl⟩, _, _, rfl⟩

/-- A byte of the buffer and the first byte after it; and the last byte of all. -/
theorem witness_UpcomingBytesAreTheKeystream :
    (demo 1 []).eng.FlagsInv ∧ (demo 1 []).eng.bufferInv ∧ 1 < (demo 1 []).eng.bytesLeft ∧
      (inBlock 2 0 63 true (regs 2 0 0 0)).FlagsInv ∧ (inBlock 2 0 63 true (regs 2 0 0 0)).bytesLeft = 1 :=
  ⟨(demo_inv 1 []).flags, (demo_inv 1 []).buffer, by decide,
    inBlock_flagsInv 2 0 63 true _ (by decide) (by decide) (by decide) (by decide), by decide⟩

theorem witness_ReadWritesTheKeystreamAtTheStreamPosition :
    ∃ s : State, s.Inv ∧ s.eng.abort = false ∧ s.eng.ready = true ∧
      s.eng.args.dst.toNat + s.eng.args.len.toNat = s.cfg.memSize ∧ 0 < min s.eng.args.len.toNat s.eng.bytesLeft :=
  ⟨demo 1 [], demo_inv 1 [], rfl, rfl, by decide, by decide⟩

theorem witness_SeekZeroReplaysTheStreamOfInit :
    ∃ s : State, s.eng.abort = false ∧ s.eng.args.rounds ≠ 0 ∧ s.eng.args.rounds.toNat % 2 = 0 ∧
      s.eng.args.seekLo = 0 ∧ s.eng.args.seekHi = 0 :=
  ⟨demo 1 [], rfl, by decide, rfl, rfl, rfl⟩

/-- The first and the last block. -/
theorem witness_SeekAgreesWithLinearReading :
    ∀ n ∈ [0, 2 ^ 64 - 1], ∃ s : State, n < 2 ^ 64 ∧ s.eng.abort = false ∧ s.eng.args.rounds ≠ 0 ∧
      s.eng.args.rounds.toNat % 2 = 0 ∧ s.eng.args.seekHi ++ s.eng.args.seekLo = BitVec.ofNat 64 n ∧
      s.eng.args.len = 64 ∧ s.eng.args.dst.toNat + 64 ≤ s.cfg.memSize := by
  intro n hn
  simp only [List.mem_cons, List.not_mem_nil, or_false] at hn
  rcases hn with rfl | rfl
  · exact ⟨running (zeroKey 2 0 (regs 2 0 0 64 0 0)), by decide, rfl, by decide, rfl, by decide, rfl, by decide⟩
  · exact ⟨running (zeroKey 2 0 (regs 2 0 0 64 0xFFFFFFFF 0xFFFFFFFF)), by decide, rfl, by decide, rfl, by decide, rfl,
      by decide⟩

/-- And the further READ: the last byte of data memory. -/
theorem witness_ExhaustionBoundary :
    ∃ s : State, s.eng.abort = false ∧ s.eng.ready = true ∧ s.eng.args.seekLo = 0xFFFFFFFF ∧
      s.eng.args.seekHi = 0xFFFFFFFF ∧ s.eng.args.len = 64 ∧ s.eng.args.dst.toNat + 64 ≤ s.cfg.memSize ∧
      (1 : Word) ≠ 0 ∧ (0xFFF : Word).toNat + (1 : Word).toNat ≤ s.cfg.memSize :=
  ⟨running (zeroKey 2 0 (regs 2 0 0 64 0xFFFFFFFF 0xFFFFFFFF)), rfl, rfl, rfl, rfl, rfl, by decide, by decide,
    by decide⟩

/-- One byte in place: the first XOR of `demo`, and the same engine over the memory it leaves. -/
theorem witness_XorTwiceRestoresTheInput :
    ∃ s t u : State, s.Inv ∧ u.Inv ∧ s.eng.abort = false ∧ s.eng.ready = true ∧ u.eng.abort = false ∧
      u.eng.ready = true ∧ s.eng.args.len.toNat = 1 ∧ u.eng.args.len.toNat = 1 ∧
      s.eng.args.src.toNat = s.eng.args.dst.toNat ∧ u.eng.args.src.toNat = u.eng.args.dst.toNat ∧
      s.eng.args.dst.toNat + 1 = s.cfg.memSize ∧ u.eng.args.dst.toNat + 1 = u.cfg.memSize ∧
      1 ≤ s.eng.bytesLeft ∧ u.eng = s.eng ∧ exec .xor s = .next t ∧
      (Memory.lookup s.mem s.eng.args.src.toNat).isSome = true ∧
      Memory.lookup u.mem u.eng.args.src.toNat = Memory.lookup t.mem s.eng.args.dst.toNat := by
  have hc : cmdCheck .xor (demo 1 []) = none := by decide
  obtain ⟨mem, draws, h, _⟩ := exec_xor_accepted hc
  refine ⟨demo 1 [], _, { demo 1 [] with mem := mem }, demo_inv 1 [],
    ⟨?_, (demo_inv 1 []).flags, (demo_inv 1 []).buffer⟩, rfl, rfl, rfl, rfl, rfl, rfl, rfl, rfl, by decide,
    (by decide : (demo 1 []).eng.args.dst.toNat + 1 = (demo 1 []).cfg.memSize), by decide, rfl, h,
    by decide, ?_⟩
  · have := exec_xor_memory hc h (demo_inv 1 []).memory.1 (demo_inv 1 []).memory.2
    exact this
  · split <;> rfl

/-- A READ that runs NEXT; and a SEEK. -/
theorem witness_MatrixChangesOnlyItsCounter :
    ∃ s t : State, step s = .next t ∧ ¬ s.writesCommand .init ∧ ¬ s.resetsNext ∧ s.writesCommand .read ∧
      s.eng.refills 2 = 1 := by
  obtain ⟨t, h⟩ := demo_steps
  refine ⟨_, t, h, by unfold State.writesCommand; decide, ?_, rfl, rfl⟩
  rintro (h | ⟨v, h⟩) <;> cases h

/-- Cleared by SEEK 0; set by SEEK of the last block, and so by the command itself. -/
theorem witness_ExhaustedIsClearedOnlyBySeekInitOrReset :
    (∃ s t : State, step s = .next t ∧ s.eng.exhausted = true ∧ t.eng.exhausted = false) ∧
      ∃ s t : State, step s = .next t ∧ s.eng.exhausted = false ∧ t.eng.exhausted = true :=
  ⟨⟨running (inBlock 2 0 64 true (regs 2 0 0 0)) [cmdOp .seek], _, rfl, rfl, rfl⟩,
    ⟨running (zeroKey 2 0 (regs 2 0 0 0 0xFFFFFFFF 0xFFFFFFFF)) [cmdOp .seek], _, rfl, rfl, rfl⟩⟩

theorem witness_SafeRunsReportNoAbort :
    ∃ s : State, s.Inv ∧ s.host.script ≠ [] ∧ safeRun 1 s = true :=
  ⟨demo 1 [cmdOp .read], demo_inv 1 _, by decide, by decide⟩

/-- Each clause of the table is met at its own offset; the two ranges at their edges. -/
theorem witness_RegisterReadReturnsItsTableValue :
    ∀ off ∈ [0x00#8, 0x1C, 0x20, 0x24, 0x28, 0x2C, 0x30, 0x34, 0x38, 0x3C, 0x40, 0x44, 0x48, 0x4C, 0x50, 0x54, 0x58, 0xFC],
      (platform [.read .word off]).host.script = .read .word off :: [] ∧ off.toNat % 4 = 0 := by
  intro off h
  exact ⟨rfl, by revert off; decide⟩

theorem witness_ArgumentWriteStoresOnlyThere :
    ∀ off ∈ [0x00#8, 0x3C], (platform [.write .word off 7]).host.script = .write .word off 7 :: [] ∧
      off.toNat % 4 = 0 ∧ off.toNat < 0x40 := by
  intro off h
  exact ⟨rfl, by revert off; decide⟩

theorem witness_ReadOnlyAndReservedWritesAreIgnored :
    ∀ off ∈ [0x44#8, 0x54, 0x58, 0xFC], (platform [.write .word off 7]).host.script = .write .word off 7 :: [] ∧
      off.toNat % 4 = 0 ∧ 0x44 ≤ off.toNat := by
  intro off h
  exact ⟨rfl, by revert off; decide⟩

/-- The reads of the second clause: its two ranges at their edges, and CMD. -/
theorem witness_ReadOnlyAndReservedWritesAreIgnored_reads :
    ∀ off ∈ [0x00#8, 0x1C, 0x40, 0x58, 0xFC], (platform [.read .word off]).host.script = .read .word off :: [] ∧
      off.toNat % 4 = 0 ∧ (off.toNat < 0x20 ∨ off = 0x40 ∨ 0x58 ≤ off.toNat) := by
  intro off h
  exact ⟨rfl, by revert off; decide⟩

/-- A narrow write at an aligned offset, and a 32-bit read one byte off. -/
theorem witness_UnalignedOrNarrowAccessIsABusError :
    ((platform [.write .byte 0x20 1]).host.script = .write .byte 0x20 1 :: [] ∧ AccessWidth.byte ≠ .word) ∧
      ((platform [.read .word 0x21]).host.script = .read .word 0x21 :: [] ∧ (0x21 : BitVec 8).toNat % 4 ≠ 0) :=
  ⟨⟨rfl, by decide⟩, rfl, by decide⟩

/-- The last offset of the window and the addresses next to it; the first byte of data memory and the one below it. -/
theorem witness_BusAddressReachesItsOffset :
    (platform [.busWrite .word 0x400000FC 7]).host.script =
        .busWrite .word ((platform []).cfg.regBase + (0xFC : BitVec 8).toNat) 7 :: [] ∧
      0x3FFFFFFF < (platform []).cfg.regBase ∧ (platform []).cfg.regBase + 256 ≤ 0x40000100 ∧
      (platform [.busMemRead 0x80000000 1]).host.script = .busMemRead ((platform []).cfg.memBase + 0) 1 :: [] ∧
      0x7FFFFFFF < (platform []).cfg.memBase := by decide

/-- Two engines with different keys. -/
theorem witness_KeyMaterialIsNotReadable :
    ∃ (s t t' : State) (e : Engine), s.host.script = .read .word 0x00 :: [] ∧
      e.args = { s.eng.args with key := e.args.key } ∧ e.args.key ≠ s.eng.args.key ∧ e.m[12] = s.eng.m[12] ∧
      e.m[13] = s.eng.m[13] ∧ e.cursor = s.eng.cursor ∧ e.exhausted = s.eng.exhausted ∧ e.ready = s.eng.ready ∧
      e.abort = s.eng.abort ∧ e.eos = s.eng.eos ∧ e.err = s.eng.err ∧ e.count = s.eng.count ∧
      step s = .next t ∧ step { s with eng := e } = .next t' :=
  ⟨platform [.read .word 0x00], _, _, { Engine.reset with args := { ArgRegs.reset with key := #v[1, 2, 3, 4, 5, 6, 7, 8] } },
    rfl, rfl, by decide, rfl, rfl, rfl, rfl, rfl, rfl, rfl, rfl, rfl, rfl, rfl⟩

/-- Two bytes at the end of data memory, and none at all past it. -/
theorem witness_HostReadsBackWhatItWrote :
    (platform [.memWrite 0xFFE [1, 2], .memRead 0xFFE 2]).host.script =
        .memWrite 0xFFE [1, 2] :: .memRead 0xFFE [(1 : Byte), 2].length :: [] ∧
      0xFFE + [(1 : Byte), 2].length = (platform []).cfg.memSize ∧ ([] : List Byte).length = 0 := ⟨rfl, rfl, rfl⟩

theorem witness_HostAccessOutsideDataMemoryFaults :
    (2 : Nat) ≠ 0 ∧ (platform []).cfg.memSize < 0xFFF + 2 ∧ [(1 : Byte), 2].length = 2 ∧
      (platform [.memRead 0xFFF 2]).host.script = .memRead 0xFFF 2 :: [] := ⟨by decide, by decide, rfl, rfl⟩

theorem witness_InitPseudoOperationLoadsKeyAndNonce :
    ∃ (s : State) (key : Vector Byte 32) (nonce : Vector Byte 8) (rounds : Word), s.eng.abort = false ∧ rounds ≠ 0 ∧
      rounds.toNat % 2 = 0 ∧ s.host.script = initOps key nonce rounds ++ [] :=
  ⟨platform (initOps (Vector.replicate 32 1) (Vector.replicate 8 2) 20), Vector.replicate 32 1, Vector.replicate 8 2, 20,
    rfl, by decide, rfl, (List.append_nil _).symm⟩

end Sys2Proof.Tests
end

section
/-! SUPPORT. Accesses by host address (R10, R50, R59; log 12): what each of them resolves to, and two facts about the
step, which knows an operation only by what it resolves to. From them, O57. -/

namespace Sys2Proof.Machine

/-! ### What a host address resolves to -/

theorem HostOp.resolve_busWrite_window (c : Config) (width : AccessWidth) (off : BitVec 8) (v : Word) :
    HostOp.resolve c (.busWrite width (c.regBase + off.toNat) v) = .write width off v := by
  simp only [HostOp.resolve, Config.windowOffset_add]

theorem HostOp.resolve_busRead_window (c : Config) (width : AccessWidth) (off : BitVec 8) :
    HostOp.resolve c (.busRead width (c.regBase + off.toNat)) = .read width off := by
  simp only [HostOp.resolve, Config.windowOffset_add]

theorem HostOp.resolve_busWrite_outside {c : Config} {addr : Nat}
    (ha : addr < c.regBase ∨ c.regBase + 256 ≤ addr) (width : AccessWidth) (v : Word) :
    HostOp.resolve c (.busWrite width addr v) = .busWrite width addr v := by
  simp only [HostOp.resolve, Config.windowOffset_outside c ha]

theorem HostOp.resolve_busRead_outside {c : Config} {addr : Nat}
    (ha : addr < c.regBase ∨ c.regBase + 256 ≤ addr) (width : AccessWidth) :
    HostOp.resolve c (.busRead width addr) = .busRead width addr := by
  simp only [HostOp.resolve, Config.windowOffset_outside c ha]

theorem HostOp.resolve_busMemWrite_add (c : Config) (a : Nat) (bytes : List Byte) :
    HostOp.resolve c (.busMemWrite (c.memBase + a) bytes) = .memWrite a bytes := by
  simp only [HostOp.resolve, if_pos (Nat.le_add_right _ _), Nat.add_sub_cancel_left]

theorem HostOp.resolve_busMemRead_add (c : Config) (a n : Nat) :
    HostOp.resolve c (.busMemRead (c.memBase + a) n) = .memRead a n := by
  simp only [HostOp.resolve, if_pos (Nat.le_add_right _ _), Nat.add_sub_cancel_left]

theorem HostOp.resolve_busMemWrite_below {c : Config} {addr : Nat} (ha : addr < c.memBase) (bytes : List Byte) :
    HostOp.resolve c (.busMemWrite addr bytes) = .busMemWrite addr bytes := by
  simp only [HostOp.resolve, if_neg (Nat.not_le.mpr ha)]

theorem HostOp.resolve_busMemRead_below {c : Config} {addr : Nat} (ha : addr < c.memBase) (n : Nat) :
    HostOp.resolve c (.busMemRead addr n) = .busMemRead addr n := by
  simp only [HostOp.resolve, if_neg (Nat.not_le.mpr ha)]

/-! ### The step sees the resolved operation only -/

/-- The operation itself is gone from the state in which it runs. -/
theorem State.advance_replaceHead {s : State} {op : HostOp} {rest : List HostOp}
    (h : s.host.script = op :: rest) (op' : HostOp) :
    State.advance { s with host := { s.host with script := op' :: rest } } = s.advance := by
  simp only [State.advance, h, List.tail_cons]

/-- An operation at the head of the script may stand for any other one that resolves to the same. -/
theorem step_replaceHead {s : State} {op op' : HostOp} {rest : List HostOp} (h : s.host.script = op :: rest)
    (hop : HostOp.resolve s.cfg op = HostOp.resolve s.cfg op') :
    step s = step { s with host := { s.host with script := op' :: rest } } := by
  rw [step_cons h, hop, step_cons (s := { s with host := { s.host with script := op' :: rest } }) rfl,
    State.advance_replaceHead h]

/-- An operation that faults before it does anything is a step that faults. -/
theorem step_cons_fault {s : State} {op : HostOp} {rest : List HostOp} {r : Fault}
    (h : s.host.script = op :: rest) (ho : runHostOp (op.resolve s.cfg) s.advance = .fault r) :
    step s = .fault r := by
  rw [step_cons h, ho]; rfl

/-! ### The statement -/

/-- An access by host address in the window is the access at its offset (R10, R59). -/
theorem step_busAccess_window {s : State} {rest : List HostOp} (width : AccessWidth) (v : Word) (off : BitVec 8) :
    (s.host.script = .busWrite width (s.cfg.regBase + off.toNat) v :: rest →
      step s = step { s with host := { s.host with script := .write width off v :: rest } }) ∧
    (s.host.script = .busRead width (s.cfg.regBase + off.toNat) :: rest →
      step s = step { s with host := { s.host with script := .read width off :: rest } }) :=
  ⟨fun h => step_replaceHead h (HostOp.resolve_busWrite_window s.cfg width off v),
   fun h => step_replaceHead h (HostOp.resolve_busRead_window s.cfg width off)⟩

theorem step_busAccess_outside {s : State} {rest : List HostOp} {width : AccessWidth} {v : Word} {addr : Nat}
    (ha : addr < s.cfg.regBase ∨ s.cfg.regBase + 256 ≤ addr)
    (h : s.host.script = .busWrite width addr v :: rest ∨ s.host.script = .busRead width addr :: rest) :
    step s = .fault .unmappedAddress := by
  obtain h | h := h
  · exact step_cons_fault h (by rw [HostOp.resolve_busWrite_outside ha]; rfl)
  · exact step_cons_fault h (by rw [HostOp.resolve_busRead_outside ha]; rfl)

/-- An access by host address from data memory's base up is the access at its data memory address (R50). -/
theorem step_busMemAccess_add {s : State} {rest : List HostOp} (bytes : List Byte) (n a : Nat) :
    (s.host.script = .busMemWrite (s.cfg.memBase + a) bytes :: rest →
      step s = step { s with host := { s.host with script := .memWrite a bytes :: rest } }) ∧
    (s.host.script = .busMemRead (s.cfg.memBase + a) n :: rest →
      step s = step { s with host := { s.host with script := .memRead a n :: rest } }) :=
  ⟨fun h => step_replaceHead h (HostOp.resolve_busMemWrite_add s.cfg a bytes),
   fun h => step_replaceHead h (HostOp.resolve_busMemRead_add s.cfg a n)⟩

theorem step_busMemAccess_below {s : State} {rest : List HostOp} {bytes : List Byte} {n addr : Nat}
    (ha : addr < s.cfg.memBase)
    (h : s.host.script = .busMemWrite addr bytes :: rest ∨ s.host.script = .busMemRead addr n :: rest) :
    step s = .fault .unmappedAddress := by
  obtain h | h := h
  · exact step_cons_fault h (by rw [HostOp.resolve_busMemWrite_below ha]; rfl)
  · exact step_cons_fault h (by rw [HostOp.resolve_busMemRead_below ha]; rfl)

/-- Settles O57: an operation by host address resolves to the one by offset or by data memory address, or stays as it is
and is unmapped; the step depends on what it resolves to and on the rest of the script. -/
theorem busAddressReachesItsOffset : Obligations.BusAddressReachesItsOffset :=
  fun _ _ width v bytes n =>
    ⟨step_busAccess_window width v, fun _ => step_busAccess_outside,
     step_busMemAccess_add bytes n, fun _ => step_busMemAccess_below⟩

end Sys2Proof.Machine
end

section
/-! SUPPORT. STATUS bit by bit (R34), and how the engine's flags and counter come through everything a step can do
(R15, R19, R25). From them, O6, O43, O44 and O47. -/

namespace Sys2Proof.Machine

/-! ### The STATUS word -/

/-- STATUS bit by bit (R34). -/
theorem Engine.statusWord_getLsbD (e : Engine) {i : Nat} (hi : i < 32) :
    e.statusWord.getLsbD i =
      if i = 0 then e.ready else if i = 1 then e.exhausted else if i = 2 then e.eos else if i = 3 then e.abort
      else if i < 8 then false else e.err.bits.getLsbD (i - 8) := by
  simp only [Engine.statusWord, BitVec.getLsbD_setWidth, BitVec.getLsbD_append, BitVec.getLsbD_ofBool]
  grind

/-- Settles O47, from the bits of the word: bits 4 to 7 are zeros, and above them stands the code, which has three. -/
theorem statusFieldsStandWhereTheTableSays : Obligations.StatusFieldsStandWhereTheTableSays := by
  intro e
  refine ⟨e.statusWord_getLsbD (by decide), e.statusWord_getLsbD (by decide), e.statusWord_getLsbD (by decide),
    e.statusWord_getLsbD (by decide), ?_, ?_, ?_, rfl, rfl, rfl, rfl, rfl, rfl, rfl⟩ <;>
    refine BitVec.eq_of_getLsbD_eq fun i hi => ?_ <;>
    rw [BitVec.getLsbD_extractLsb', Engine.readSlot, e.statusWord_getLsbD (by omega)]
  · grind
  · grind
  · have hpast : e.err.bits.getLsbD (11 + i - 8) = false := BitVec.getLsbD_of_ge _ _ (by omega)
    grind

/-! ### The operation that writes a command -/

theorem encode_inj {i j : Instr} (h : encode i = encode j) : i = j := by
  have h' := decode_encode i
  rw [h, decode_encode] at h'
  exact (Except.ok.inj h').symm

/-- A CMD write is the operation of one command only (R60). -/
@[simp] theorem cmdOp_inj {i j : Instr} : cmdOp i = cmdOp j ↔ i = j :=
  ⟨fun h => encode_inj (by injection h), congrArg cmdOp⟩

@[simp] theorem cmdOp_ne_reset (i : Instr) : cmdOp i ≠ .reset := nofun
@[simp] theorem cmdOp_ne_resetDuring (i : Instr) (v : Word) : cmdOp i ≠ .resetDuring v := nofun

/-- What a step does to the engine, by the host's next operation. -/
theorem step_engine_nextOp {s t : State} (h : step s = .next t) : EngineStep s.nextOp s t.eng := step_engine h

/-- What a command does to the engine, by the operation that writes it. -/
theorem exec_engine_cmdOp {i : Instr} {s t : State} (h : exec i s = .next t) : EngineStep (some (cmdOp i)) s t.eng :=
  exec_engine h

/-! ### The counter -/

/-- COUNT holds every count of bytes that LEN allows (R36). -/
theorem toNat_count {len : Word} {c : Nat} (h : c ≤ len.toNat) : (BitVec.ofNat 32 c).toNat = c := by
  rw [BitVec.toNat_ofNat, Nat.mod_eq_of_lt (Nat.lt_of_le_of_lt h len.isLt)]

theorem Engine.afterBytes_ctr_eq_zero_iff (e : Engine) (c : Nat) :
    (e.afterBytes c).ctr = 0 ↔ (e.ctr.toNat + e.refills c) % 2 ^ 64 = 0 := by
  rw [← BitVec.toNat_inj]
  simp [BitVec.toNat_add]

/-- Serving bytes sets `exhausted` only by wrapping the counter (R25, R79). -/
theorem Engine.afterBytes_ctr_of_exhausted {e : Engine} {c : Nat} (hx : e.exhausted = false)
    (h : (e.afterBytes c).exhausted = true) : (e.afterBytes c).ctr = 0 := by
  have hwrap : e.refills c ≠ 0 ∧ e.ctr.toNat + e.refills c = 2 ^ 64 := by simpa [hx] using h
  rw [Engine.afterBytes_ctr_eq_zero_iff, hwrap.2, Nat.mod_self]

/-- Everything but INIT and reset leaves the matrix words other than the counter's alone (R19). -/
theorem EngineStep.matrix_other {op : Option HostOp} {s : State} {e : Engine} (h : EngineStep op s e)
    (hi : op ≠ some (cmdOp .init)) (hr : ¬ (op = some .reset ∨ ∃ v, op = some (.resetDuring v)))
    (k : Fin 16) (h12 : k ≠ 12) (h13 : k ≠ 13) : e.m[k] = s.eng.m[k] := by
  have h12 : k.val ≠ 12 := Fin.val_ne_of_ne h12
  have h13 : k.val ≠ 13 := Fin.val_ne_of_ne h13
  cases h with
  | same | rejected | argument => rfl
  | reset hop => exact absurd hop hr
  | init hop => exact absurd hop hi
  | seek => exact Matrix.withCtr_getElem_other _ _ k k.isLt h12 h13
  | read | xor | xorAbort => exact Engine.afterBytes_m_other _ _ k k.isLt h12 h13

/-- Everything but INIT and reset leaves the counter, or is SEEK, or moves it by the refills (R19, R81, R94). -/
theorem EngineStep.counter {op : Option HostOp} {s : State} {e : Engine} (h : EngineStep op s e)
    (hi : op ≠ some (cmdOp .init)) (hr : ¬ (op = some .reset ∨ ∃ v, op = some (.resetDuring v))) :
    e.ctr = s.eng.ctr ∨ (op = some (cmdOp .seek) ∧ e.ctr = s.eng.args.seekIndex + 1) ∨
      ((op = some (cmdOp .read) ∨ op = some (cmdOp .xor)) ∧
        e.ctr = s.eng.ctr + BitVec.ofNat 64 (s.eng.refills e.count.toNat)) := by
  cases h with
  | same | rejected | argument => exact .inl rfl
  | reset hop => exact absurd hop hr
  | init hop => exact absurd hop hi
  | seek hop => exact .inr (.inl ⟨hop, s.eng.sought_ctr _⟩)
  | read hop _ c hc =>
    simp only [toNat_count (hc ▸ Nat.min_le_left _ _)]
    exact .inr (.inr ⟨.inl hop, s.eng.afterBytes_ctr c⟩)
  | xor hop _ =>
    simp only [toNat_count (Nat.le_refl _)]
    exact .inr (.inr ⟨.inr hop, s.eng.afterBytes_ctr _⟩)
  | xorAbort hop _ short =>
    simp only [toNat_count (Nat.le_of_lt short)]
    exact .inr (.inr ⟨.inr hop, s.eng.afterBytes_ctr _⟩)

/-- Settles O43: a step and a command alike change the engine as `EngineStep` says, and both clauses are read off its
cases. -/
theorem matrixChangesOnlyItsCounter : Obligations.MatrixChangesOnlyItsCounter := by
  refine ⟨fun s t h hi hr => ⟨(step_engine_nextOp h).matrix_other hi hr, (step_engine_nextOp h).counter hi hr⟩, ?_⟩
  intro i s t h hi
  have hinit : some (cmdOp i) ≠ some (cmdOp .init) := by simpa using hi
  have hreset : ¬ (some (cmdOp i) = some .reset ∨ ∃ v, some (cmdOp i) = some (.resetDuring v)) := by simp
  refine ⟨(exec_engine_cmdOp h).matrix_other hinit hreset, ?_⟩
  simpa [ArgRegs.seekIndex] using (exec_engine_cmdOp h).counter hinit hreset

/-! ### `exhausted` -/

/-- Clearing `exhausted` is left to SEEK, INIT and reset (R25). -/
theorem EngineStep.exhausted_cleared {op : Option HostOp} {s : State} {e : Engine} (h : EngineStep op s e)
    (hs : s.eng.exhausted = true) (he : e.exhausted = false) :
    op = some (cmdOp .seek) ∨ op = some (cmdOp .init) ∨ op = some .reset ∨ ∃ v, op = some (.resetDuring v) := by
  cases h with
  | same | rejected | argument => exact absurd (hs.symm.trans he) (by decide)
  | reset hop => exact .inr (.inr hop)
  | init hop => exact .inr (.inl hop)
  | seek hop => exact .inl hop
  | read | xor | xorAbort => simp [hs] at he

/-- Setting `exhausted` takes a command that runs NEXT, and the counter is then 0 (R25, R79). -/
theorem EngineStep.exhausted_set {op : Option HostOp} {s : State} {e : Engine} (h : EngineStep op s e)
    (hs : s.eng.exhausted = false) (he : e.exhausted = true) :
    (op = some (cmdOp .seek) ∨ op = some (cmdOp .read) ∨ op = some (cmdOp .xor)) ∧ e.ctr = 0 := by
  cases h with
  | same | rejected | argument => exact absurd (hs.symm.trans he) (by decide)
  | reset | init => cases he
  | seek hop => exact ⟨.inl hop, (s.eng.sought_ctr _).trans (beq_iff_eq.1 he)⟩
  | read hop => exact ⟨.inr (.inl hop), Engine.afterBytes_ctr_of_exhausted hs he⟩
  | xor hop | xorAbort hop => exact ⟨.inr (.inr hop), Engine.afterBytes_ctr_of_exhausted hs he⟩

/-- Settles O44: a step and a command alike change the engine as `EngineStep` says; the counter is 0 where `exhausted`
is set, as NEXT sets it only on a wrap. -/
theorem exhaustedIsClearedOnlyBySeekInitOrReset : Obligations.ExhaustedIsClearedOnlyBySeekInitOrReset := by
  refine ⟨fun s t h => ⟨(step_engine_nextOp h).exhausted_cleared, (step_engine_nextOp h).exhausted_set⟩,
    fun i s t h => ⟨?_, ?_⟩⟩
  · intro hs ht
    simpa using (exec_engine_cmdOp h).exhausted_cleared hs ht
  · intro hs ht
    obtain ⟨hop, hctr⟩ := (exec_engine_cmdOp h).exhausted_set hs ht
    refine ⟨?_, hctr⟩
    rintro rfl
    simp at hop

/-! ### The flags' invariant -/

/-- An accepted INIT finds an even round count that is not 0 (R90, R128). -/
theorem cmdCheck_none_rounds {s : State} (h : cmdCheck .init s = none) :
    s.eng.args.rounds ≠ 0 ∧ s.eng.args.rounds.toNat % 2 = 0 := by
  have hb : ¬ badRounds s.eng.args.rounds = true := by
    intro hb
    simp [cmdCheck_init, cmdCheck_none_abort h, hb] at h
  rw [badRounds_iff, not_or] at hb
  exact ⟨hb.1, by omega⟩

theorem Engine.reset_flagsInv : Engine.reset.FlagsInv := by
  constructor <;> simp [Engine.reset]

/-- A rejection keeps the invariant where its code is HALTED exactly while halted and NOT_INIT only before INIT. -/
theorem Engine.FlagsInv.reject {e : Engine} (h : e.FlagsInv) {code : ErrCode}
    (hhalted : code = .halted ↔ e.abort = true) (hnotInit : code = .notInit → e.ready = false)
    (hcode : code ≠ .exhaustionAbort) : Engine.FlagsInv { e with err := code } :=
  { h with
    notReady := fun hy => by rw [h.notReady hy]
    halted := by simp [hcode, hhalted]
    notInit := hnotInit }

theorem Engine.FlagsInv.setArgs {e : Engine} (h : e.FlagsInv) (a : ArgRegs) :
    Engine.FlagsInv { e with args := a } :=
  { h with notReady := fun hy => by rw [h.notReady hy] }

/-- What the invariant asks of a ready engine whose last command completed. -/
theorem Engine.flagsInv_of_completed {e : Engine} (ready : e.ready = true) (running : e.abort = false)
    (ok : e.err = .ok)
    (constants : e.m[0] = 0x61707865#32 ∧ e.m[1] = 0x3320646E#32 ∧ e.m[2] = 0x79622D32#32 ∧ e.m[3] = 0x6B206574#32)
    (rounds : e.roundCount ≠ 0 ∧ e.roundCount.toNat % 2 = 0) (exhausted : e.exhausted = true → e.ctr = 0)
    (wrapped : e.cursor.val < 64 → e.ctr = 0 → e.exhausted = true)
    (eos : e.eos = true → e.exhausted = true ∧ e.cursor.val = 64) : e.FlagsInv where
  constants _ := constants
  rounds _ := rounds
  notReady := by simp [ready]
  exhausted hx := ⟨ready, exhausted hx⟩
  wrapped := wrapped
  eos := eos
  abort := by simp [running]
  halted := by simp [running, ok]
  notInit := by simp [ok]

/-- INIT builds a consistent engine: the constants, the round count it has checked, and an empty buffer (R91). -/
theorem State.runInit_flagsInv {s : State} (check : cmdCheck .init s = none) : s.runInit.eng.FlagsInv :=
  Engine.flagsInv_of_completed rfl (cmdCheck_none_abort (s := s) check) rfl ⟨rfl, rfl, rfl, rfl⟩
    (cmdCheck_none_rounds check) nofun (fun hcur => absurd hcur (Nat.lt_irrefl 64)) nofun

/-- SEEK keeps the invariant: it sets `exhausted` by the counter it leaves (R79, R94). -/
theorem Engine.FlagsInv.sought {e : Engine} (h : e.FlagsInv) (ready : e.ready = true) (running : e.abort = false)
    (n : BitVec 64) : Engine.FlagsInv { e.sought n with count := 0, eos := false, err := .ok } := by
  have hctr : Engine.ctr { e.sought n with count := 0, eos := false, err := .ok } = n + 1 := e.sought_ctr n
  refine Engine.flagsInv_of_completed ready running rfl ?_ (h.rounds ready) ?_ ?_ nofun
  · simpa [Engine.sought, Matrix.withCtr_getElem_other] using h.constants ready
  · rw [hctr]; exact beq_iff_eq.1
  · rw [hctr]; exact fun _ => beq_iff_eq.2

/-- Serving bytes leaves the constants (R15, R19). -/
theorem Engine.FlagsInv.afterBytes_constants {e : Engine} (h : e.FlagsInv) (ready : e.ready = true) (c : Nat) :
    (e.afterBytes c).m[0] = 0x61707865#32 ∧ (e.afterBytes c).m[1] = 0x3320646E#32 ∧
      (e.afterBytes c).m[2] = 0x79622D32#32 ∧ (e.afterBytes c).m[3] = 0x6B206574#32 := by
  simpa [Engine.afterBytes_m_other] using h.constants ready

/-- While bytes are served `exhausted` stands only on a counter of 0: it is new, or no refill moved the counter (R25). -/
theorem Engine.FlagsInv.afterBytes_exhausted {e : Engine} (h : e.FlagsInv) {c : Nat} (hc : c ≤ e.bytesLeft)
    (hx : (e.afterBytes c).exhausted = true) : (e.afterBytes c).ctr = 0 := by
  cases hold : e.exhausted with
  | false => exact Engine.afterBytes_ctr_of_exhausted hold hx
  | true =>
    have hr : e.refills c = 0 := by simpa [hold] using e.refills_le c hc
    have h0 : e.ctr = 0 := (h.exhausted hold).2
    simp [hr, h0]

/-- A counter of 0 with bytes left in the buffer has wrapped, now or before: a refill that did not wrap it has left it
at 1 or more (R79, R82). -/
theorem Engine.FlagsInv.afterBytes_wrapped {e : Engine} (h : e.FlagsInv) {c : Nat} (hc : c ≤ e.bytesLeft)
    (hcur : (e.afterBytes c).cursor.val < 64) (h0 : (e.afterBytes c).ctr = 0) : (e.afterBytes c).exhausted = true := by
  rw [Engine.afterBytes_exhausted]
  cases hold : e.exhausted with
  | true => rfl
  | false =>
    have hle : e.ctr.toNat + e.refills c ≤ 2 ^ 64 := by simpa [hold] using e.refills_le c hc
    rw [Engine.afterBytes_ctr_eq_zero_iff] at h0
    have hr : e.refills c ≠ 0 := by
      intro hr
      have hctr : e.ctr = 0 := by
        rw [← BitVec.toNat_inj]
        simpa [hr, Nat.mod_eq_of_lt e.ctr.isLt] using h0
      rw [Engine.afterBytes_cursor, hr] at hcur
      exact absurd (h.wrapped (by omega) hctr) (by simp [hold])
    have : e.ctr.toNat + e.refills c = 2 ^ 64 := by omega
    simp [hr, this]

/-- A READ or an XOR that completes keeps the invariant: `eos` stands only where READ came to the end of the stream. -/
theorem Engine.FlagsInv.served {e : Engine} (h : e.FlagsInv) (ready : e.ready = true) (running : e.abort = false)
    {c : Nat} (hc : c ≤ e.bytesLeft) (n : Word) {eos : Bool} (heos : eos = true → c = e.bytesLeft) :
    Engine.FlagsInv { e.afterBytes c with count := n, eos := eos, err := .ok } := by
  refine Engine.flagsInv_of_completed ready running rfl (h.afterBytes_constants ready c) (h.rounds ready)
    (h.afterBytes_exhausted hc) (h.afterBytes_wrapped hc) fun he => ?_
  obtain ⟨hcur, hx⟩ := e.afterBytes_all
  rw [← heos he] at hcur hx
  exact ⟨hx, hcur⟩

/-- An XOR that aborts keeps the invariant: it has served the whole stream (R126). -/
theorem Engine.FlagsInv.aborted {e : Engine} (h : e.FlagsInv) (ready : e.ready = true) (n : Word) :
    Engine.FlagsInv
      { e.afterBytes e.bytesLeft with count := n, eos := false, abort := true, err := .exhaustionAbort } where
  constants _ := h.afterBytes_constants ready e.bytesLeft
  rounds _ := h.rounds ready
  notReady := by simp [ready]
  exhausted hx := ⟨ready, h.afterBytes_exhausted (Nat.le_refl _) hx⟩
  wrapped := h.afterBytes_wrapped (Nat.le_refl _)
  eos := nofun
  abort _ := ⟨e.afterBytes_all.2, e.afterBytes_all.1, rfl⟩
  halted := by simp
  notInit := nofun

/-- Everything an operation of the host can do keeps the invariant, entering the halted state too. -/
theorem EngineStep.flagsInv {op : Option HostOp} {s : State} {e : Engine} (h : EngineStep op s e)
    (hs : s.eng.FlagsInv) : e.FlagsInv := by
  cases h with
  | same => exact hs
  | rejected code halted notInit _ notAbort => exact hs.reject halted notInit notAbort
  | argument r v => exact hs.setArgs _
  | reset => exact Engine.reset_flagsInv
  | init _ check => exact State.runInit_flagsInv check
  | seek _ check => exact hs.sought (cmdCheck_none_ready check (by decide)) (cmdCheck_none_abort check) _
  | read _ check c hc =>
    refine hs.served (cmdCheck_none_ready check (by decide)) (cmdCheck_none_abort check)
      (hc ▸ Nat.min_le_right _ _) _ fun heos => ?_
    rw [hc, Nat.min_eq_right (Nat.le_of_lt (of_decide_eq_true heos))]
  | xor _ check enough =>
    exact hs.served (cmdCheck_none_ready check (by decide)) (cmdCheck_none_abort check) enough _ nofun
  | xorAbort _ check => exact hs.aborted (cmdCheck_none_ready check (by decide)) _

/-- Settles O6: what a step does to the engine is one of the changes that keep the invariant. -/
theorem stepKeepsFlagsConsistent : Obligations.StepKeepsFlagsConsistent :=
  fun _ _ hs h => (step_engine h).flagsInv hs

end Sys2Proof.Machine
end

section
/-! SUPPORT. Data memory and the output buffer through everything a step can do (R40, R47, R82). From them, O5 and
O56. -/

namespace Sys2Proof.Machine

/-! ### Data memory -/

/-- A host write whose range lies in data memory keeps it canonical and in range (R47, R117). -/
theorem State.memoryInv.memWriteBytes {s : State} (h : s.memoryInv) {a : Nat} {bytes : List Byte}
    (hrange : bytes.length = 0 ∨ a + bytes.length ≤ s.cfg.memSize) : (State.memWriteBytes bytes a s).memoryInv := by
  obtain ⟨hwf, hbound⟩ := h
  have hcfg : (State.memWriteBytes bytes a s).cfg = s.cfg := by
    obtain ⟨mem, hrun, _⟩ := State.memWriteBytes_spec bytes a s
    rw [hrun]
  rw [State.memoryInv, hcfg]
  exact State.memWriteBytes_memory bytes a s.cfg.memSize s hwf hbound hrange

/-- A host read draws free bytes at most (R41, R117). -/
theorem State.memoryInv.memReadBytes {s : State} (h : s.memoryInv) (a n : Nat) :
    (State.memReadBytes n a s).2.memoryInv := by
  obtain ⟨d, _, hread⟩ := State.memReadBytes_frame n a s
  rw [hread]
  exact h

/-- Bytes that lose their values leave a canonical list of the others (R141). -/
theorem State.memoryInv.forget {s : State} (h : s.memoryInv) (a n : Nat) :
    State.memoryInv { s with mem := Memory.forget s.mem a n } :=
  let ⟨hwf, hbound⟩ := h
  ⟨Memory.wf_forget a n hwf, fun c hc => hbound c (Memory.mem_forget hc)⟩

theorem State.memoryInv.resetDuring {s : State} (h : s.memoryInv) (v : Word) : (s.resetDuring v).memoryInv := by
  obtain ⟨hrun, _⟩ | ⟨_, _, _, _, hrun⟩ := State.resetDuring_cases s v
  · rw [hrun]; exact h
  · rw [hrun]; exact h.forget _ _

/-- Every operation of the host that answers a next state keeps the memory invariant (R40, R47). -/
theorem runHostOp_memoryInv {op : HostOp} {s t : State} (ho : runHostOp op s = .next t) (h : s.memoryInv) :
    t.memoryInv := by
  obtain ⟨i, _, hi⟩ | rfl | ⟨r, v, rfl⟩ | ⟨r, rfl⟩ | ⟨a, bytes, hrange, rfl⟩ | ⟨a, n, rfl⟩ | ⟨_, rfl⟩ | ⟨v, _, rfl⟩ :=
    runHostOp_cases ho
  · exact exec_memoryInv hi h       -- a command
  · exact h                         -- an illegal CMD value
  · exact h                         -- an argument register
  · exact h                         -- a register read
  · exact h.memWriteBytes hrange
  · exact h.memReadBytes a n
  · exact h                         -- a reset between operations
  · exact h.resetDuring v

/-- Settles O5: a step is nothing, or one operation of the host with the script advanced, and each kind of operation
keeps the invariant. -/
theorem stepKeepsMemoryCanonical : Obligations.StepKeepsMemoryCanonical := by
  intro s t h hstep
  obtain ⟨_, rfl⟩ | ⟨op, _, ho, _⟩ := step_cases hstep
  · exact h
  · exact runHostOp_memoryInv (s := s.advance) ho h

/-! ### The output buffer -/

/-- An empty buffer asks nothing. -/
theorem Engine.bufferInv_of_empty {e : Engine} (h : e.cursor.val = 64) : e.bufferInv :=
  fun hcur => absurd hcur (by omega)

/-- SEEK fills the buffer with the block it sought and leaves the counter one past it (R94). -/
theorem Engine.sought_bufferInv {e : Engine} (ready : e.ready = true) (n : BitVec 64) : (e.sought n).bufferInv :=
  fun _ => ⟨ready, by
    rw [Engine.sought_outbuf, Engine.sought_blockBytes, Engine.sought_ctr, BitVec.add_sub_cancel]⟩

theorem Engine.afterBytes_outbuf (e : Engine) (c : Nat) :
    (e.afterBytes c).outbuf =
      if e.refills c = 0 then e.outbuf else e.blockBytes (e.ctr + BitVec.ofNat 64 (e.refills c) - 1) := rfl

/-- Serving bytes keeps the rest of the old block where no refill ran, and otherwise leaves the last refill's block,
the one before the counter (R81, R82). -/
theorem Engine.bufferInv.afterBytes {e : Engine} (h : e.bufferInv) (ready : e.ready = true) (c : Nat) :
    (e.afterBytes c).bufferInv := by
  intro hcur
  refine ⟨ready, ?_⟩
  rw [Engine.afterBytes_outbuf, Engine.afterBytes_blockBytes, Engine.afterBytes_ctr]
  split
  next hnone =>
    rw [Engine.afterBytes_cursor, hnone] at hcur
    obtain ⟨_, hblock⟩ := h (by omega)
    rw [hblock, hnone, BitVec.add_zero]
  next => rfl

/-- Everything an operation of the host can do keeps the buffered block, entering the halted state too. -/
theorem EngineStep.bufferInv {op : Option HostOp} {s : State} {e : Engine} (h : EngineStep op s e)
    (hs : s.eng.bufferInv) : e.bufferInv := by
  cases h with
  | same | rejected | argument => exact hs
  | reset | init => exact Engine.bufferInv_of_empty rfl
  | seek _ check => exact Engine.sought_bufferInv (cmdCheck_none_ready check (by decide)) _
  | read _ check | xor _ check | xorAbort _ check =>
    exact hs.afterBytes (cmdCheck_none_ready check (by decide)) _

/-- Settles O56: `exec_memoryInv` for data memory; for the engine, a command's changes are among those of `EngineStep`,
the aborting XOR's too, and these keep both of its parts. -/
theorem commandsKeepTheInvariant : Obligations.CommandsKeepTheInvariant :=
  fun _ _ _ h => ⟨exec_memoryInv h, (exec_engine h).flagsInv, (exec_engine h).bufferInv⟩

end Sys2Proof.Machine
end

section
/-! SUPPORT. Decoding of every CMD value (R61), the table's numbers (R60), and the offsets of the window's slots (R59).
From them, O8, O9 and O10. -/

namespace Sys2Proof

/-! ### Command words -/

/-- Every value but the four command words is ILLEGAL (R61). -/
theorem decode_illegal {v : Word} (h : ∀ i, v ≠ encode i) : decode v = .error (.illegalCmd v) :=
  (if_neg (h .init)).trans <| (if_neg (h .seek)).trans <| (if_neg (h .read)).trans <| if_neg (h .xor)

/-- A number of 32 bits is its own table word. -/
@[simp] theorem tableWord_toNat (v : Word) : tableWord 32 v.toNat = v := by
  rw [tableWord, Nat.mod_eq_of_lt v.isLt, BitVec.ofNat_toNat, BitVec.setWidth_eq]

theorem decodeLanes_encodeLanes (i : Instr) : decodeLanes (encodeLanes i) = .ok i := by
  rw [encodeLanes, decodeLanes_lanesOf, decode_encode]

/-- The opcode table's own number of a command is read as that command (R60). -/
theorem decodeTableWord_encode (i : Instr) : decodeTableWord 32 (encode i).toNat = some i := by
  rw [decodeTableWord, tableWord_toNat, decodeLanes_lanesOf, decode_encode]; rfl

/-- Settles O8: each of the four values is a command's own word, and a value that is none of them is illegal. -/
theorem decodeAcceptsExactlyFourWords : Obligations.DecodeAcceptsExactlyFourWords := by
  intro v
  refine ⟨fun h => h ▸ decode_encode .init, fun h => h ▸ decode_encode .seek, fun h => h ▸ decode_encode .read,
    fun h => h ▸ decode_encode .xor, fun hinit hseek hread hxor => decode_illegal fun i => ?_⟩
  cases i with
  | init => exact hinit
  | seek => exact hseek
  | read => exact hread
  | xor => exact hxor

/-- Settles O9: lanes and table number both lead back to the command's word, which decodes to the command. -/
theorem commandWordsRoundTrip : Obligations.CommandWordsRoundTrip :=
  ⟨fun i _ => ⟨decodeLanes_encodeLanes i, decodeTableWord_encode i⟩, rfl, rfl, rfl, rfl, rfl⟩

namespace Machine

/-! ### Offsets of the window -/

/-- Only a misaligned offset names no slot (R59, R115). -/
theorem Slot.ofOffset_eq_none_iff {off : BitVec 8} : Slot.ofOffset off = none ↔ off.toNat % 4 ≠ 0 := by
  simp [Slot.ofOffset]

@[simp] theorem Slot.key_offset_toNat (i : Fin 8) : (Slot.key i).offset.toNat = 4 * i.val :=
  Nat.mod_eq_of_lt (by omega)

@[simp] theorem Slot.reserved_offset_toNat (i : Fin 42) : (Slot.reserved i).offset.toNat = 0x58 + 4 * i.val :=
  Nat.mod_eq_of_lt (by omega)

/-- Settles O10: offset and slot give each other back, and the offsets lie within the window's 256 bytes. -/
theorem windowOffsetsNameTheirSlots : Obligations.WindowOffsetsNameTheirSlots :=
  ⟨Slot.ofOffset_offset, fun _ _ => Slot.offset_of_ofOffset, fun _ => Slot.ofOffset_eq_none_iff,
    Slot.key_offset_toNat, Slot.reserved_offset_toNat⟩

end Machine
end Sys2Proof
end

section
/-! SUPPORT. The operations of `init K, N, r` (R67): eleven argument writes, what they leave in the argument registers,
and the INIT that follows them. From them, O54. -/

namespace Sys2Proof.Machine

/-! ### The argument writes -/

/-- The argument writes of `init K, N, r`, in their order (R58, R67). -/
def initWrites (key : Vector Byte 32) (nonce : Vector Byte 8) (rounds : Word) : List (Slot × Word) :=
  (List.finRange 8).map (fun i => (.key i, keyWord key i)) ++
    [(.nonce0, nonceWord nonce 0), (.nonce1, nonceWord nonce 1), (.rounds, rounds)]

/-- The argument registers that hold a key, a nonce and a round count, the others as they are in `a` (R58). -/
def ArgRegs.load (a : ArgRegs) (key : Vector Byte 32) (nonce : Vector Byte 8) (rounds : Word) : ArgRegs :=
  { a with
    key := Vector.ofFn (keyWord key)
    nonce0 := nonceWord nonce 0
    nonce1 := nonceWord nonce 1
    rounds := rounds }

theorem initOps_eq (key : Vector Byte 32) (nonce : Vector Byte 8) (rounds : Word) :
    initOps key nonce rounds = (initWrites key nonce rounds).map (fun w => writeOp w.1 w.2) ++ [cmdOp .init] := by
  simp [initOps, initWrites]

@[simp] theorem initWrites_length (key : Vector Byte 32) (nonce : Vector Byte 8) (rounds : Word) :
    (initWrites key nonce rounds).length = 11 := by
  simp [initWrites]

/-- None of them is a CMD write. -/
theorem initWrites_ne_cmd (key : Vector Byte 32) (nonce : Vector Byte 8) (rounds : Word) :
    ∀ w ∈ initWrites key nonce rounds, w.1 ≠ .cmd := by
  intro w hw
  simp only [initWrites, List.mem_append, List.mem_map, List.mem_cons, List.not_mem_nil, or_false] at hw
  obtain ⟨i, _, rfl⟩ | rfl | rfl | rfl := hw <;> exact nofun

/-- Writes of `f i` to the key registers listed in `l`. -/
def ArgRegs.writeKeys (f : Fin 8 → Word) (l : List (Fin 8)) (a : ArgRegs) : ArgRegs :=
  l.foldl (fun a i => a.write (.key i) (f i)) a

theorem ArgRegs.writeKeys_cons (f : Fin 8 → Word) (i : Fin 8) (l : List (Fin 8)) (a : ArgRegs) :
    a.writeKeys f (i :: l) = (a.write (.key i) (f i)).writeKeys f l := rfl

/-- They leave the other argument registers alone (R111). -/
theorem ArgRegs.writeKeys_frame (f : Fin 8 → Word) (l : List (Fin 8)) (a : ArgRegs) :
    a.writeKeys f l = { a with key := (a.writeKeys f l).key } := by
  induction l generalizing a with
  | nil => rfl
  | cons i l ih => rw [ArgRegs.writeKeys_cons, ih]; rfl

theorem ArgRegs.write_key_getElem (a : ArgRegs) (i j : Fin 8) (v : Word) :
    (a.write (.key i) v).key[j] = if j = i then v else a.key[j] := by
  simp only [ArgRegs.write, Fin.getElem_fin, Vector.getElem_set, Fin.val_inj, eq_comm]

/-- Each key register then holds what was written to it, or its old value where nothing was (R111). -/
theorem ArgRegs.writeKeys_getElem (f : Fin 8 → Word) (l : List (Fin 8)) (a : ArgRegs) (j : Fin 8) :
    (a.writeKeys f l).key[j] = if j ∈ l then f j else a.key[j] := by
  induction l generalizing a with
  | nil => rfl
  | cons i l ih =>
    rw [ArgRegs.writeKeys_cons, ih, ArgRegs.write_key_getElem]
    obtain rfl | hne := Decidable.em (j = i)
    · simp
    · simp [hne]

/-- Writes to all eight key registers leave nothing of the old key. -/
theorem ArgRegs.writeKeys_all (f : Fin 8 → Word) (a : ArgRegs) :
    a.writeKeys f (List.finRange 8) = { a with key := Vector.ofFn f } := by
  have hkey : (a.writeKeys f (List.finRange 8)).key = Vector.ofFn f := Vector.ext fun j hj => by
    simpa using a.writeKeys_getElem f (List.finRange 8) ⟨j, hj⟩
  rw [ArgRegs.writeKeys_frame, hkey]

/-- The argument writes load the registers and leave the others alone. -/
theorem ArgRegs.foldl_initWrites (a : ArgRegs) (key : Vector Byte 32) (nonce : Vector Byte 8) (rounds : Word) :
    (initWrites key nonce rounds).foldl (fun a w => a.write w.1 w.2) a = a.load key nonce rounds := by
  rw [initWrites, List.foldl_append, List.foldl_map, ← ArgRegs.writeKeys, ArgRegs.writeKeys_all]
  rfl

/-! ### The matrix -/

/-- Words 4 to 11 of the matrix INIT builds are the key registers (R16). -/
theorem ArgRegs.initMatrix_key (a : ArgRegs) (i : Fin 8) : a.initMatrix[4 + i.val] = a.key[i] :=
  match i with
  | 0 | 1 | 2 | 3 | 4 | 5 | 6 | 7 => rfl

/-! ### The run -/

/-- INIT's check passes for an engine that is not halted and an accepted round count (R90, R128). -/
theorem cmdCheck_init_none {s : State} (running : s.eng.abort = false) (h0 : s.eng.args.rounds ≠ 0)
    (heven : s.eng.args.rounds.toNat % 2 = 0) : cmdCheck .init s = none := by
  simp [cmdCheck_init, running, badRounds_eq_false h0 heven]

/-- An accepted INIT is a step that passes, as it leaves `abort` alone (R91, R126). -/
theorem step_init_accepted {s : State} {rest : List HostOp} (h : s.host.script = cmdOp .init :: rest)
    (running : s.eng.abort = false) (h0 : s.eng.args.rounds ≠ 0) (heven : s.eng.args.rounds.toNat % 2 = 0) :
    step s = .next s.advance.runInit := by
  have hadvance : s.advance = { s with host := { s.host with script := rest, position := s.host.position + 1 } } := by
    simp [State.advance, h]
  rw [step_cmdOp h, ← hadvance, exec_init_accepted (cmdCheck_init_none (s := s.advance) running h0 heven),
    faultOnHalt_pass (t := s.advance.runInit) (.inr running)]

/-- The twelve operations of `init K, N, r` run INIT on the loaded argument registers (R67). -/
theorem run_initOps {s : State} {key : Vector Byte 32} {nonce : Vector Byte 8} {rounds : Word} {rest : List HostOp}
    (running : s.eng.abort = false) (h0 : rounds ≠ 0) (heven : rounds.toNat % 2 = 0)
    (h : s.host.script = initOps key nonce rounds ++ rest) :
    Host.Core.run Sys2Proof.core 12 s = .next (State.runInit { s with
      eng := { s.eng with args := s.eng.args.load key nonce rounds }
      host := { s.host with script := rest, position := s.host.position + 12 } }) := by
  have hscript : s.host.script =
      (initWrites key nonce rounds).map (fun w => writeOp w.1 w.2) ++ (cmdOp .init :: rest) := by
    rw [h, initOps_eq, List.append_assoc, List.singleton_append]
  have hwrites := run_writeOps 1 (initWrites key nonce rounds) s _ (initWrites_ne_cmd key nonce rounds) hscript
  rw [ArgRegs.foldl_initWrites, initWrites_length] at hwrites
  exact hwrites.trans (run_step 0 (step_init_accepted rfl running h0 heven))

/-- Settles O54: the run ends in INIT's state, whose matrix is built from the loaded registers. -/
theorem initPseudoOperationLoadsKeyAndNonce : Obligations.InitPseudoOperationLoadsKeyAndNonce := by
  intro s key nonce rounds rest running h0 heven hscript
  refine ⟨_, run_initOps running h0 heven hscript, rfl, rfl, rfl, rfl, rfl, ArgRegs.initMatrix_ctr _,
    fun i => ?_, rfl, rfl⟩
  rw [State.runInit_m, ArgRegs.initMatrix_key]
  simp [ArgRegs.load, keyWord]

end Sys2Proof.Machine
end

section
/-! SUPPORT. The block function part by part: the quarter-round's words, PERMUTE's loop, the block, its bytes (R71 to
R78), the counter (R79), and the stream NEXT and KSBYTE serve (R80 to R82). From them, O7 and O28 to O37. -/

namespace Sys2Proof.Machine

/-! ### The output buffer -/

/-- Settles O7: what a step does to the engine is one of the changes that keep the buffered block. -/
theorem stepKeepsBufferedBlock : Obligations.StepKeepsBufferedBlock :=
  fun _ _ hs h => (step_engine h).bufferInv hs

/-! ### The quarter-round -/

/-- On distinct indices each of the four words lands where it was read (R71). -/
theorem quarterRound_words {a b c d : Fin 16} (x : Matrix) (hab : a ≠ b) (hac : a ≠ c) (had : a ≠ d) (hbc : b ≠ c)
    (hbd : b ≠ d) (hcd : c ≠ d) :
    ((quarterRound a b c d x)[a], (quarterRound a b c d x)[b], (quarterRound a b c d x)[c],
      (quarterRound a b c d x)[d]) = quarterRoundWords x[a] x[b] x[c] x[d] := by
  have hne : b.val ≠ a.val ∧ c.val ≠ a.val ∧ d.val ≠ a.val ∧ c.val ≠ b.val ∧ d.val ≠ b.val ∧ d.val ≠ c.val := by omega
  simp [quarterRound, hne]

/-- A word outside the group is left alone (R71). -/
theorem quarterRound_getElem_of_notMem {a b c d i : Fin 16} (x : Matrix) (hi : i ∉ [a, b, c, d]) :
    (quarterRound a b c d x)[i] = x[i] := by
  simp only [List.mem_cons, List.not_mem_nil, or_false, not_or, ← Fin.val_inj] at hi
  obtain ⟨ha, hb, hc, hd⟩ := hi
  exact quarterRound_other a b c d x i i.isLt ha hb hc hd

/-- A word of the group depends on the group alone (R71). -/
theorem quarterRound_getElem_of_mem {a b c d i : Fin 16} {y z : Matrix} (hi : i ∈ [a, b, c, d])
    (h : ∀ k ∈ [a, b, c, d], y[k] = z[k]) : (quarterRound a b c d y)[i] = (quarterRound a b c d z)[i] :=
  quarterRound_congr a b c d (h a (by simp)) (h b (by simp)) (h c (by simp)) (h d (by simp)) i i.isLt
    (by simpa [← Fin.val_inj] using hi)

/-- Outside its own group, a quarter-round before one on a disjoint group is not seen (R72, R73). -/
theorem quarterRound_getElem_after_disjoint {a b c d a' b' c' d' i : Fin 16} (x : Matrix)
    (hdisj : ∀ k ∈ [a, b, c, d], k ∉ [a', b', c', d']) (hi : i ∉ [a', b', c', d']) :
    (quarterRound a b c d (quarterRound a' b' c' d' x))[i] = (quarterRound a b c d x)[i] := by
  by_cases hg : i ∈ [a, b, c, d]
  · exact quarterRound_getElem_of_mem hg fun k hk => quarterRound_getElem_of_notMem x (hdisj k hk)
  · simp only [quarterRound_getElem_of_notMem _ hg, quarterRound_getElem_of_notMem _ hi]

/-- Two matrices are equal when their sixteen words are. -/
theorem Matrix.ext_getElem {x y : Matrix} (h : ∀ i : Fin 16, x[i] = y[i]) : x = y :=
  Vector.ext fun n hn => h ⟨n, hn⟩

/-- Settles O28: the four words are those of `quarterRoundWords`, whose steps are R71's, and a word outside the group is
left alone. -/
theorem quarterRoundMixesItsFourWords : Obligations.QuarterRoundMixesItsFourWords := by
  rintro a b c d x hab hac had hbc hbd hcd _ _ _ _ _ _ _ _ rfl rfl rfl rfl rfl rfl rfl rfl
  have hwords := quarterRound_words x hab hac had hbc hbd hcd
  simp only [quarterRoundWords, rotl32_eq_rotateLeft, Nat.reduceLT, Prod.mk.injEq] at hwords
  obtain ⟨ha, hb, hc, hd⟩ := hwords
  exact ⟨ha, hb, hc, hd, fun i hia hib hic hid =>
    quarterRound_getElem_of_notMem x (by simp [hia, hib, hic, hid])⟩

/-- Settles O29, word by word: a word of the second group is not seen by the first quarter-round, and any other word is
not seen by the second. -/
theorem disjointQuarterRoundsCommute : Obligations.DisjointQuarterRoundsCommute := by
  rintro _ _ a b c d a' b' c' d' x rfl rfl _ _ hdisj
  refine Matrix.ext_getElem fun i => ?_
  by_cases hi : i ∈ [a', b', c', d']
  · have hg : i ∉ [a, b, c, d] := fun hg => hdisj i hg hi
    rw [quarterRound_getElem_of_notMem _ hg,
      quarterRound_getElem_after_disjoint x (fun k hk hg => hdisj k hg hk) hg]
  · rw [quarterRound_getElem_of_notMem _ hi, quarterRound_getElem_after_disjoint x hdisj hi]

/-! ### PERMUTE, ADDBACK and SERIALISE -/

/-- Double rounds are the loop of R75. -/
theorem doubleRounds_eq_repeat (n : Nat) (x : Matrix) : doubleRounds n x = Nat.repeat doubleRound n x := by
  induction n with
  | zero => rfl
  | succ n ih => rw [doubleRounds_succ, ih, Nat.repeat]

/-- Settles O30: the eight quarter-rounds of the statement are DOUBLEROUND's own. -/
theorem permuteRunsHalfTheRoundCount : Obligations.PermuteRunsHalfTheRoundCount :=
  fun m roundCount => doubleRounds_eq_repeat (roundCount.toNat / 2) m

/-- Word `i` of a block (R76, R77). -/
theorem block_getElem (m : Matrix) (roundCount : Word) (i : Fin 16) :
    (block m roundCount)[i] = (permute m roundCount)[i] + m[i] :=
  Vector.getElem_zipWith i.isLt

/-- Settles O31: the words are added, and the sum of 32-bit words is taken modulo 2^32. -/
theorem blockAddsTheMatrixBack : Obligations.BlockAddsTheMatrixBack := by
  intro m roundCount i
  rw [block_getElem, BitVec.toNat_add]

/-- Byte `k` of a word as a number (R11). -/
theorem byteOf_toNat (w : Word) (k : Nat) : (byteOf w k).toNat = w.toNat / 2 ^ (8 * k) % 2 ^ 8 := by
  rw [byteOf, BitVec.extractLsb'_toNat, Nat.shiftRight_eq_div_pow]

/-- Settles O32: the bytes are those of the word, in the order of `le32`. -/
theorem serialiseIsLittleEndian : Obligations.SerialiseIsLittleEndian := by
  intro y i
  constructor
  · have h0 := serialise_getElem y i 0 i.isLt (by decide)
    simp only [Nat.add_zero] at h0
    simp only [h0, serialise_getElem y i _ i.isLt, Nat.reduceLT, le32_byteOf, Fin.getElem_fin]
  · intro k
    rw [serialise_getElem y i k i.isLt k.isLt, byteOf_toNat, Fin.getElem_fin]

/-! ### CTRINC, NEXT and KSBYTE -/

/-- The increment wraps from 2^64 - 1 alone (R79). -/
theorem ctrWrapped_succ_iff (c : BitVec 64) : ctrWrapped (c + 1) = true ↔ c.toNat = 2 ^ 64 - 1 := by
  rw [ctrWrapped_succ, beq_iff_eq]
  omega

theorem Engine.ctrInc_ctr (e : Engine) : e.ctrInc.ctr = e.ctr + 1 := Matrix.ctr_withCtr _ _

theorem Engine.ctrInc_exhausted_iff (e : Engine) :
    e.ctrInc.exhausted = true ↔ e.exhausted = true ∨ e.ctr.toNat = 2 ^ 64 - 1 := by
  rw [Engine.ctrInc, Bool.or_eq_true, ctrWrapped_succ_iff, or_comm, Engine.ctr]

/-- Settles O33: the counter is read back from the words it was written to, and CTRINC writes no other. -/
theorem counterIncrement : Obligations.CounterIncrement := by
  refine fun e => ⟨?_, fun i h12 h13 => ?_, e.ctrInc_exhausted_iff, rfl⟩
  · exact (congrArg BitVec.toNat e.ctrInc_ctr).trans (BitVec.toNat_add _ _)
  · exact Matrix.withCtr_getElem_other _ _ i i.isLt (Fin.val_ne_of_ne h12) (Fin.val_ne_of_ne h13)

/-- Settles O34: CTRINC ends NEXT, and it wraps from 2^64 - 1 alone. -/
theorem nextGeneratesTheBlockOfTheCounter : Obligations.NextGeneratesTheBlockOfTheCounter := by
  refine fun e => ⟨Engine.next_exhausted, fun hx => ?_⟩
  have hwrap : ctrWrapped (Matrix.ctr e.m + 1) = decide ((Matrix.ctr e.m).toNat = 2 ^ 64 - 1) := by
    rw [Bool.eq_iff_iff, ctrWrapped_succ_iff, decide_eq_true_iff]
  rw [Engine.next_ready hx, Engine.ctr, hwrap]

/-- KSBYTE with an empty buffer is NEXT, byte 0 of its block served (R81). -/
theorem Engine.ksByte_empty {e : Engine} (hc : e.cursor.val = 64) :
    e.ksByte = e.next.map fun e' => (e'.outbuf[0], { e' with cursor := 1 }) := by
  rw [Engine.ksByte, dif_neg (by omega)]
  cases e.next <;> rfl

/-- Settles O35: the buffer first, and NEXT only where it is empty. -/
theorem ksByteRefillsLazily : Obligations.KsByteRefillsLazily := by
  refine fun e => ⟨Engine.ksByte_buffered, fun e' hc hnext => ?_, fun hc hnext => ?_⟩
  · rw [Engine.ksByte_empty hc, hnext, Option.map_some]
  · rw [Engine.ksByte_empty hc, hnext, Option.map_none]

/-- Settles O36: KSBYTE leaves the engine after 1 byte, and serving bytes adds up. -/
theorem ksByteServesTheUpcomingByte : Obligations.KsByteServesTheUpcomingByte := by
  refine fun e => ⟨e.ksByte_eq_none_iff, fun b e' h => ?_⟩
  obtain ⟨hb, rfl, hleft⟩ := Engine.ksByte_some h
  refine ⟨hb, hleft, fun j => ?_, rfl, fun c hc => ?_⟩
  · rw [Engine.upcomingByte_afterBytes, Nat.add_comm]
  · rw [Engine.afterBytes_add e 1 c (by omega), Nat.add_comm]

/-! ### The keystream -/

/-- Keystream byte `64 n + k` is byte `k` of block `n`, both read off modulo the 2^64 blocks (R82). -/
theorem Engine.keystreamByte_eq (e : Engine) (p k : Nat) (n : BitVec 64) (hk : k < 64)
    (h : p % 2 ^ 70 = 64 * n.toNat + k) : e.keystreamByte p = (e.blockBytes n)[k] := by
  have hblock : BitVec.ofNat 64 (p % 2 ^ 70 / 64) = n := by
    rw [show p % 2 ^ 70 / 64 = n.toNat by omega, BitVec.ofNat_toNat, BitVec.setWidth_eq]
  have hbyte : p % 64 = k := by omega
  simp only [Engine.keystreamByte, hblock, hbyte]

/-- Settles O37: a byte of the buffer stands in the block before the counter, where the buffer's invariant has it, and a
later one in the block of its refill. -/
theorem upcomingBytesAreTheKeystream : Obligations.UpcomingBytesAreTheKeystream := by
  intro e _ hbuf j _
  have hctr := e.ctr.isLt
  rw [Engine.upcomingByte]
  split
  next hin =>
    obtain ⟨_, hblock⟩ := hbuf (by omega)
    simp only [hblock]
    refine (e.keystreamByte_eq _ _ _ hin ?_).symm
    have hprev : (e.ctr - 1).toNat = (e.ctr.toNat + (2 ^ 64 - 1)) % 2 ^ 64 := by
      rw [BitVec.toNat_sub, Nat.add_comm]; rfl
    rw [hprev, Engine.streamPos]
    omega
  next hout =>
    refine (e.keystreamByte_eq _ _ _ (Nat.mod_lt _ (by decide)) ?_).symm
    rw [BitVec.toNat_add, BitVec.toNat_ofNat, Engine.streamPos]
    omega

end Sys2Proof.Machine
end

section
/-! SUPPORT. The commands in full: when each is rejected, the exact next state of each acceptance, and everything a
command can do to the whole state, said once (R90 to R103, R121 to R126). From them, O13 to O18, O20 and O24 to O27. -/

namespace Sys2Proof.Machine

/-! ### Rejection and acceptance -/

/-- While halted every command is rejected with HALTED (R127, R129). -/
theorem exec_halted {s : State} (i : Instr) (halted : s.eng.abort = true) : exec i s = .next (s.reject .halted) :=
  exec_rejected (by simp [cmdCheck, halted])

/-- Before INIT the other commands are rejected with NOT_INIT (R123). -/
theorem exec_notReady {s : State} {i : Instr} (hi : i ≠ .init) (running : s.eng.abort = false)
    (fresh : s.eng.ready = false) : exec i s = .next (s.reject .notInit) :=
  exec_rejected (by simp [cmdCheck, running, fresh, hi])

/-- InRange fails for a range of one byte or more that ends past data memory (R47). -/
theorem Config.inRange_eq_false {c : Config} {a n : Nat} (h0 : n ≠ 0) (hpast : c.memSize < a + n) :
    Config.inRange c a n = false := by
  rw [Bool.eq_false_iff, ne_eq, Config.inRange_iff]
  omega

theorem cmdCheck_seek_none {s : State} (running : s.eng.abort = false) (ready : s.eng.ready = true) :
    cmdCheck .seek s = none := by
  simp [cmdCheck_seek, running, ready]

theorem cmdCheck_read_none {s : State} (running : s.eng.abort = false) (ready : s.eng.ready = true)
    (hdst : s.eng.args.len.toNat = 0 ∨ s.eng.args.dst.toNat + s.eng.args.len.toNat ≤ s.cfg.memSize) :
    cmdCheck .read s = none := by
  simp [cmdCheck_read, running, ready, (dstInRange_iff s).2 hdst]

theorem cmdCheck_xor_none {s : State} (running : s.eng.abort = false) (ready : s.eng.ready = true)
    (hsrc : s.eng.args.len.toNat = 0 ∨ s.eng.args.src.toNat + s.eng.args.len.toNat ≤ s.cfg.memSize)
    (hdst : s.eng.args.len.toNat = 0 ∨ s.eng.args.dst.toNat + s.eng.args.len.toNat ≤ s.cfg.memSize) :
    cmdCheck .xor s = none := by
  simp [cmdCheck_xor, running, ready, (srcInRange_iff s).2 hsrc, (dstInRange_iff s).2 hdst]

/-- READ to a range that does not fit in data memory (R124). -/
theorem exec_read_outOfRange {s : State} (running : s.eng.abort = false) (ready : s.eng.ready = true)
    (h0 : s.eng.args.len.toNat ≠ 0) (hpast : s.cfg.memSize < s.eng.args.dst.toNat + s.eng.args.len.toNat) :
    exec .read s = .next (s.reject .range) := by
  have hdst : s.dstInRange = false := Config.inRange_eq_false h0 hpast
  exact exec_rejected (by simp [cmdCheck_read, running, ready, hdst])

/-- XOR from or to a range that does not fit in data memory (R124). -/
theorem exec_xor_outOfRange {s : State} (running : s.eng.abort = false) (ready : s.eng.ready = true)
    (h0 : s.eng.args.len.toNat ≠ 0)
    (hpast : s.cfg.memSize < s.eng.args.src.toNat + s.eng.args.len.toNat ∨
      s.cfg.memSize < s.eng.args.dst.toNat + s.eng.args.len.toNat) :
    exec .xor s = .next (s.reject .range) := by
  have hrange : (s.srcInRange && s.dstInRange) = false := by
    rw [Bool.and_eq_false_iff]
    exact hpast.imp (Config.inRange_eq_false h0) (Config.inRange_eq_false h0)
  exact exec_rejected (by simp [cmdCheck_xor, running, ready, hrange])

/-! ### INIT and SEEK -/

/-- Settles O14: the check passes for an even round count that is not 0, and an accepted INIT is `runInit`. -/
theorem initBuildsTheCipherState : Obligations.InitBuildsTheCipherState := by
  refine fun s => ⟨fun running h0 heven => exec_init_accepted (cmdCheck_init_none running h0 heven),
    fun running hbad => ?_, exec_halted .init⟩
  exact exec_rejected (by simp [cmdCheck_init, running, (badRounds_iff _).2 hbad])

/-- SEEK sets `exhausted` for the last block of all (R79, R94). -/
theorem ctrWrapped_succ_eq_decide (n : BitVec 64) : ctrWrapped (n + 1) = decide (n.toNat = 2 ^ 64 - 1) := by
  rw [Bool.eq_iff_iff, ctrWrapped_succ_iff, decide_eq_true_iff]

/-- Settles O15: an accepted SEEK leaves the engine `sought`, whose increment wraps from 2^64 - 1 alone. -/
theorem seekGeneratesTheSoughtBlock : Obligations.SeekGeneratesTheSoughtBlock := by
  rintro s _ rfl
  refine ⟨fun running ready => ?_, exec_notReady (by decide), exec_halted .seek⟩
  rw [exec_seek_accepted (cmdCheck_seek_none running ready), ← ctrWrapped_succ_eq_decide]
  rfl

/-! ### READ and XOR -/

/-- Settles O16: an accepted READ is its loop, whose engine and every byte `exec_read_accepted` gives. -/
theorem readWritesTheUpcomingBytes : Obligations.ReadWritesTheUpcomingBytes := by
  rintro s _ _ rfl rfl
  refine ⟨fun running ready hdst => ?_, exec_read_outOfRange, exec_notReady (by decide), exec_halted .read⟩
  obtain ⟨mem, hrun, hmem⟩ := exec_read_accepted (cmdCheck_read_none running ready hdst)
  refine ⟨mem, hrun, fun hshort => ?_, fun j hj => ?_, fun a ha => ?_⟩
  · rw [Nat.min_eq_right (Nat.le_of_lt hshort)]
    exact s.eng.afterBytes_all
  · rw [hmem, if_pos (by omega), Nat.add_sub_cancel_left]
  · rw [hmem, if_neg ha]

/-- Settles O17: an accepted XOR is its loop, whose engine and every byte `exec_xor_accepted` gives, and the abort comes
exactly where the stream is too short. -/
theorem xorAppliesTheUpcomingBytes : Obligations.XorAppliesTheUpcomingBytes := by
  rintro s _ _ rfl rfl
  refine ⟨fun running ready hsrc hdst => ?_, exec_xor_outOfRange, exec_notReady (by decide), exec_halted .xor⟩
  obtain ⟨mem, draws, hrun, hdraws, hother, hbytes⟩ := exec_xor_accepted (cmdCheck_xor_none running ready hsrc hdst)
  refine ⟨mem, draws, hdraws, fun henough => ?_, fun hshort => ?_, fun hshort => ?_, hbytes, hother⟩
  · rw [hrun, if_neg (Nat.not_lt.2 henough), Nat.min_eq_left henough]
    rfl
  · rw [hrun, if_pos hshort, Nat.min_eq_right (Nat.le_of_lt hshort)]
    rfl
  · rw [Nat.min_eq_right (Nat.le_of_lt hshort)]
    exact s.eng.afterBytes_all

/-! ### Everything a command can do -/

/-- Everything a command can do to the whole state. -/
inductive CommandStep (s : State) : Instr → State → Prop
  /-- A check of R90 failed. -/
  | rejected {i : Instr} (code : ErrCode) (check : cmdCheck i s = some code) : CommandStep s i (s.reject code)
  /-- INIT ran (R91). -/
  | init (check : cmdCheck .init s = none) : CommandStep s .init s.runInit
  /-- SEEK ran (R94). -/
  | seek (check : cmdCheck .seek s = none) :
      CommandStep s .seek (State.complete { s with eng := s.eng.sought s.eng.args.seekIndex } 0 false)
  /-- READ ran (R97). -/
  | read (check : cmdCheck .read s = none) (mem : Memory) (c : Nat) (fits : c ≤ s.eng.args.len.toNat) (eos : Bool)
      (frame : ∀ x, ¬ (s.eng.args.dst.toNat ≤ x ∧ x < s.eng.args.dst.toNat + c) →
        Memory.lookup mem x = Memory.lookup s.mem x) :
      CommandStep s .read (State.complete { s with eng := s.eng.afterBytes c, mem := mem } c eos)
  /-- XOR ran to its end (R100). -/
  | xor (check : cmdCheck .xor s = none) (mem : Memory) (draws : Nat) (c : Nat) (all : c = s.eng.args.len.toNat)
      (frame : ∀ x, ¬ (s.eng.args.dst.toNat ≤ x ∧ x < s.eng.args.dst.toNat + c) →
        Memory.lookup mem x = Memory.lookup s.mem x) :
      CommandStep s .xor (State.complete { s with eng := s.eng.afterBytes c, mem := mem, draws := draws } c false)
  /-- XOR aborted (R126). -/
  | xorAbort (check : cmdCheck .xor s = none) (mem : Memory) (draws : Nat) (c : Nat)
      (short : c < s.eng.args.len.toNat)
      (frame : ∀ x, ¬ (s.eng.args.dst.toNat ≤ x ∧ x < s.eng.args.dst.toNat + c) →
        Memory.lookup mem x = Memory.lookup s.mem x) :
      CommandStep s .xor (State.exhaustionAbort { s with eng := s.eng.afterBytes c, mem := mem, draws := draws } c)

/-- A command answers a next state, one of those. -/
theorem exec_commandStep (i : Instr) (s : State) : ∃ t, exec i s = .next t ∧ CommandStep s i t := by
  cases check : cmdCheck i s with
  | some code => exact ⟨_, exec_rejected check, .rejected code check⟩
  | none =>
    cases i with
    | init => exact ⟨_, exec_init_accepted check, .init check⟩
    | seek => exact ⟨_, exec_seek_accepted check, .seek check⟩
    | read =>
      obtain ⟨mem, hrun, hmem⟩ := exec_read_accepted check
      exact ⟨_, hrun, .read check mem _ (Nat.min_le_left _ _) _ fun x hx => by rw [hmem, if_neg hx]⟩
    | xor =>
      obtain ⟨mem, draws, hrun, _, hother, _⟩ := exec_xor_accepted check
      by_cases hshort : s.eng.bytesLeft < s.eng.args.len.toNat
      · rw [Nat.min_eq_right (Nat.le_of_lt hshort)] at hrun hother
        simp only [if_pos hshort] at hrun
        exact ⟨_, hrun, .xorAbort check mem draws _ hshort hother⟩
      · rw [Nat.min_eq_left (Nat.not_lt.1 hshort)] at hrun hother
        simp only [if_neg hshort] at hrun
        exact ⟨_, hrun, .xor check mem draws _ rfl hother⟩

theorem commandStep_of_exec {i : Instr} {s t : State} (h : exec i s = .next t) : CommandStep s i t := by
  obtain ⟨u, hu, hstep⟩ := exec_commandStep i s
  rw [hu] at h
  cases h
  exact hstep

/-- Settles O18: each of the things a command can do is a next state. -/
theorem commandsAlwaysEndInANextState : Obligations.CommandsAlwaysEndInANextState :=
  fun i s => (exec_commandStep i s).imp fun _ h => h.1

/-! ### Frames -/

/-- Settles O20: a CMD write that leaves another code than OK and EXHAUSTION_ABORT is a rejection, of an illegal value or
of a command. -/
theorem rejectedCommandWritesOnlyErr : Obligations.RejectedCommandWritesOnlyErr := by
  intro s t v h hok habort
  obtain ⟨_, _, rfl⟩ | ⟨i, _, hi⟩ := cmdWrite_cases h
  · rfl
  · cases commandStep_of_exec hi with
    | rejected => rfl
    | init | seek | read | xor => exact absurd rfl hok
    | xorAbort => exact absurd rfl habort

/-- Settles O24: read off everything a command can do; the matrix words are those of O43. -/
theorem commandFrames : Obligations.CommandFrames := by
  intro i s t h
  have hm : i ≠ .init → ∀ k : Fin 16, k ≠ 12 → k ≠ 13 → t.eng.m[k] = s.eng.m[k] :=
    fun hi => (matrixChangesOnlyItsCounter.2 i s t h hi).1
  cases commandStep_of_exec h with
  | rejected => exact ⟨rfl, rfl, rfl, fun _ => rfl, fun _ => ⟨rfl, rfl⟩, fun hi => ⟨rfl, rfl, hm hi⟩⟩
  | init => exact ⟨rfl, rfl, rfl, fun _ => rfl, fun _ => ⟨rfl, rfl⟩, fun hi => absurd rfl hi⟩
  | seek => exact ⟨rfl, rfl, rfl, fun _ => rfl, fun _ => ⟨rfl, rfl⟩, fun hi => ⟨rfl, rfl, hm hi⟩⟩
  | read => exact ⟨rfl, rfl, rfl, by simp, fun _ => ⟨rfl, rfl⟩, fun hi => ⟨rfl, rfl, hm hi⟩⟩
  | xor | xorAbort => exact ⟨rfl, rfl, rfl, by simp, fun hi => absurd rfl hi, fun hi => ⟨rfl, rfl, hm hi⟩⟩

/-- Settles O25: COUNT is the number of bytes stored, which is at most LEN and so fits the register. -/
theorem readAndXorMemoryFrame : Obligations.ReadAndXorMemoryFrame := by
  intro i s t hi h
  cases commandStep_of_exec h with
  | rejected code check =>
    obtain ⟨hok, habort, _⟩ := cmdCheck_some_code check
    have hnot : ¬ (code = .ok ∨ code = .exhaustionAbort) := by simp [hok, habort]
    exact ⟨fun _ _ herr => absurd herr hnot, fun _ _ => rfl, fun herr => absurd herr hnot⟩
  | init | seek => simp at hi
  | read _ _ c fits _ frame =>
    rw [State.complete_count, toNat_count fits]
    exact ⟨fun a ha _ => frame a ha, fun hok => absurd rfl hok, fun _ => fits⟩
  | xor _ _ _ c all frame =>
    rw [State.complete_count, toNat_count (Nat.le_of_eq all)]
    exact ⟨fun a ha _ => frame a ha, fun hok => absurd rfl hok, fun _ => Nat.le_of_eq all⟩
  | xorAbort _ _ _ c short frame =>
    rw [State.exhaustionAbort_count, toNat_count (Nat.le_of_lt short)]
    exact ⟨fun a ha _ => frame a ha, fun _ habort => absurd rfl habort, fun _ => Nat.le_of_lt short⟩

/-! ### Corner cases -/

@[simp] theorem readLoop_zero (a i : Nat) (s : State) : readLoop 0 a i s = (s, i, false) := rfl
@[simp] theorem xorLoop_zero (p a i : Nat) (s : State) : xorLoop 0 p a i s = (s, i, false) := rfl

/-- With no byte left READ's loop ends before its first byte (R97). -/
theorem readLoop_exhausted {n : Nat} (a i : Nat) {s : State} (h0 : n ≠ 0) (hend : s.eng.ksByte = none) :
    readLoop n a i s = (s, i, true) := by
  obtain ⟨k, rfl⟩ := Nat.exists_eq_succ_of_ne_zero h0
  rw [readLoop, hend]

/-- Settles O26: with LEN = 0 both checks pass for any address, and the loop is left at once. -/
theorem zeroLengthDoesNothing : Obligations.ZeroLengthDoesNothing := by
  intro i s hi running ready hlen
  have hlen : s.eng.args.len.toNat = 0 := congrArg BitVec.toNat hlen
  obtain rfl | rfl := hi
  · simp only [exec, execRead, cmdCheck_read_none running ready (.inl hlen), hlen, readLoop_zero]
    rfl
  · simp only [exec, execXor, cmdCheck_xor_none running ready (.inl hlen) (.inl hlen), hlen, xorLoop_zero]
    rfl

/-- Settles O27: the first KSBYTE reports the end of the stream. -/
theorem readAtTheEndOfTheStream : Obligations.ReadAtTheEndOfTheStream := by
  intro s running ready hx hcur hlen hdst
  have hlen : s.eng.args.len.toNat ≠ 0 := fun h => hlen (BitVec.eq_of_toNat_eq h)
  have check := cmdCheck_read_none running ready (.inr hdst)
  simp only [exec, execRead, check, readLoop_exhausted _ _ hlen (Engine.ksByte_exhausted hcur hx)]
  rfl

/-! ### A CMD value that is no command -/

/-- A write of any value to CMD runs CMDWRITE on it (R114). -/
theorem step_writeCmd {s : State} {v : Word} {rest : List HostOp} (h : s.host.script = writeOp .cmd v :: rest) :
    step s = faultOnHalt s.eng
      (cmdWrite v { s with host := { s.host with script := rest, position := s.host.position + 1 } }) := by
  rw [step_cons h]
  simp only [writeOp, HostOp.resolve_write, runHostOp, accessSlot_word, Slot.ofOffset_offset, writeSlot]
  simp [State.advance, h]

/-- CMDWRITE of a value that is none of the four command words is a rejection (R103). -/
theorem cmdWrite_illegal {v : Word} (s : State) (h : ∀ i, v ≠ encode i) :
    cmdWrite v s = .next (s.reject (illegalCode s)) := by
  rw [cmdWrite, decode_illegal h]

/-- Settles O13: the value decodes to no command, and a rejection leaves `abort` alone, so the step passes. -/
theorem illegalCommandWritesOnlyErr : Obligations.IllegalCommandWritesOnlyErr := by
  intro s v rest hscript hinit hseek hread hxor
  have hillegal : ∀ i, v ≠ encode i
    | .init => hinit
    | .seek => hseek
    | .read => hread
    | .xor => hxor
  rw [step_writeCmd hscript, cmdWrite_illegal _ hillegal, faultOnHalt_pass (by simp)]
  rfl

end Sys2Proof.Machine
end

section
/-! SUPPORT. Where READ, SEEK and XOR stand in the keystream: the stream position, the block SEEK generates, READs in a
row, and an exclusive-or that is taken back (R82, R92, R95, R98, R104). From them, O38 to O42. -/

namespace Sys2Proof.Machine

/-! ### The stream position -/

/-- Serving `c` bytes moves the stream position by `c` (R82). -/
theorem Engine.afterBytes_streamPos (e : Engine) (c : Nat) :
    (e.afterBytes c).streamPos = (e.streamPos + c) % 2 ^ 70 := by
  have hrefills : e.refills c = (e.cursor.val + c - 1) / 64 := rfl
  simp only [Engine.streamPos, Engine.afterBytes_ctr, Engine.afterBytes_cursor, BitVec.toNat_add, BitVec.toNat_ofNat]
  omega

/-- Settles O38: the upcoming bytes that READ writes are the keystream (O37), and serving them moves the position. -/
theorem readWritesTheKeystreamAtTheStreamPosition : Obligations.ReadWritesTheKeystreamAtTheStreamPosition := by
  intro s hinv running ready hdst
  obtain ⟨mem, hrun, _, hbytes, _⟩ := (readWritesTheUpcomingBytes s _ _ rfl rfl).1 running ready hdst
  refine ⟨_, hrun, ?_⟩
  simp only [toNat_count (Nat.min_le_left _ _)]
  refine ⟨trivial, s.eng.afterBytes_streamPos _, fun j hj => ?_⟩
  rw [hbytes j hj, upcomingBytesAreTheKeystream s.eng hinv.flags hinv.buffer j (by omega)]

/-! ### The blocks after INIT and after SEEK -/

/-- Keystream byte `p` stands in block `p div 64`, both taken modulo the length of the stream (R82). -/
theorem Engine.keystreamByte_eq_blockBytes (e : Engine) (p : Nat) :
    e.keystreamByte p = (e.blockBytes (BitVec.ofNat 64 (p / 64)))[p % 64]'(Nat.mod_lt _ (by decide)) :=
  e.keystreamByte_eq p _ _ _ (by rw [BitVec.toNat_ofNat]; omega)

/-- With an empty buffer the blocks from the counter on are left (R79). -/
theorem Engine.bytesLeft_empty {e : Engine} (hcur : e.cursor.val = 64) (hx : e.exhausted = false) :
    e.bytesLeft = 64 * (2 ^ 64 - e.ctr.toNat) := by
  simp [Engine.bytesLeft, hcur, hx]

/-- After SEEK the sought block and those after it are left (R94). -/
theorem Engine.bytesLeft_sought (e : Engine) (n : BitVec 64) :
    (e.sought n).bytesLeft = 64 * (2 ^ 64 - n.toNat) := by
  have hn := n.isLt
  have hsucc : (n + 1).toNat = (n.toNat + 1) % 2 ^ 64 := BitVec.toNat_add n 1
  simp only [Engine.bytesLeft, Engine.sought_cursor, Engine.sought_exhausted, ctrWrapped_succ_iff, Engine.sought_ctr,
    hsucc, Fin.val_zero]
  split <;> omega

/-- After SEEK the stream goes on with the sought block (R94). -/
theorem Engine.upcomingByte_sought (e : Engine) (n : BitVec 64) (j : Nat) :
    (e.sought n).upcomingByte j =
      (e.blockBytes (n + BitVec.ofNat 64 (j / 64)))[j % 64]'(Nat.mod_lt _ (by decide)) := by
  simp only [Engine.upcomingByte, Engine.sought_cursor, Fin.val_zero, Nat.zero_add]
  split
  next hin => simp [Nat.div_eq_of_lt hin, Nat.mod_eq_of_lt hin]
  next hout =>
    have hblock : n + 1 + BitVec.ofNat 64 ((j - 64) / 64) = n + BitVec.ofNat 64 (j / 64) := by
      rw [show j / 64 = 1 + (j - 64) / 64 by omega, BitVec.ofNat_add, ← BitVec.add_assoc]
      rfl
    simp only [Engine.sought_blockBytes, Engine.sought_ctr, hblock]

/-- The first 64 bytes after SEEK are the sought block. -/
theorem Engine.upcomingByte_sought_block (e : Engine) (n : BitVec 64) {j : Nat} (hj : j < 64) :
    (e.sought n).upcomingByte j = (e.blockBytes n)[j] := by
  simp [Engine.upcomingByte_sought, Nat.div_eq_of_lt hj, Nat.mod_eq_of_lt hj]

/-- From an empty buffer a refill runs for each block (R81). -/
theorem Engine.refills_blocks {e : Engine} (hcur : e.cursor.val = 64) (k : Nat) : e.refills (64 * k) = k := by
  simp only [Engine.refills]
  omega

/-- From an empty buffer, the block `n` further on: to seek it and serve it leaves the engine that has served everything
up to its end (R95). -/
theorem Engine.sought_afterBytes {e : Engine} (hcur : e.cursor.val = 64) (hx : e.exhausted = false) {n : Nat}
    (hn : e.ctr.toNat + n < 2 ^ 64) :
    (e.sought (e.ctr + BitVec.ofNat 64 n)).afterBytes 64 = e.afterBytes (64 * (n + 1)) := by
  have hsought : (e.sought (e.ctr + BitVec.ofNat 64 n)).refills 64 = 0 := by simp [Engine.refills]
  have hlinear : e.refills (64 * (n + 1)) = n + 1 := Engine.refills_blocks hcur _
  have hctr : e.ctr + BitVec.ofNat 64 (n + 1) = e.ctr + BitVec.ofNat 64 n + 1 := by
    rw [BitVec.ofNat_add, ← BitVec.add_assoc]
    rfl
  have hsum : (e.ctr + BitVec.ofNat 64 n).toNat = e.ctr.toNat + n := by
    rw [BitVec.toNat_add, BitVec.toNat_ofNat]
    omega
  apply Engine.ext_fields <;> try rfl
  case hm =>
    apply Matrix.ext_ctr
    · show (Engine.afterBytes _ 64).ctr = (e.afterBytes _).ctr
      rw [Engine.afterBytes_ctr, Engine.afterBytes_ctr, hsought, hlinear, hctr, Engine.sought_ctr, BitVec.add_zero]
    · intro i hi h12 h13
      rw [Engine.afterBytes_m_other _ _ i hi h12 h13, Engine.afterBytes_m_other _ _ i hi h12 h13]
      exact Matrix.withCtr_getElem_other _ _ i hi h12 h13
  case ho =>
    rw [Engine.afterBytes_outbuf, Engine.afterBytes_outbuf, hsought, hlinear, hctr, BitVec.add_sub_cancel]
    rfl
  case hc =>
    apply Fin.ext
    rw [Engine.afterBytes_cursor, Engine.afterBytes_cursor, hsought, hlinear, hcur, Engine.sought_cursor, Fin.val_zero]
    omega
  case hx =>
    rw [Engine.afterBytes_exhausted, Engine.afterBytes_exhausted, hsought, hlinear, hx, Engine.sought_exhausted,
      ctrWrapped_succ, hsum]
    simp [Nat.add_assoc]

@[simp] theorem State.runInit_ctr (s : State) : s.runInit.eng.ctr = 0 := ArgRegs.initMatrix_ctr _

/-- After INIT the whole stream is left (R91). -/
@[simp] theorem State.runInit_bytesLeft (s : State) : s.runInit.eng.bytesLeft = 2 ^ 70 := by
  rw [Engine.bytesLeft_empty rfl rfl, State.runInit_ctr]
  rfl

/-- After INIT the stream starts with block 0 (R91). -/
theorem State.runInit_upcomingByte (s : State) (j : Nat) :
    s.runInit.eng.upcomingByte j =
      (s.runInit.eng.blockBytes (BitVec.ofNat 64 (j / 64)))[j % 64]'(Nat.mod_lt _ (by decide)) := by
  simp [Engine.upcomingByte_empty _ (show s.runInit.eng.cursor.val = 64 from rfl)]

/-- Block `n` of the stream of INIT (R91, R82). -/
theorem State.runInit_upcomingByte_block (s : State) (n : Nat) {j : Nat} (hj : j < 64) :
    s.runInit.eng.upcomingByte (64 * n + j) = (s.runInit.eng.blockBytes (BitVec.ofNat 64 n))[j] := by
  have hdiv : (64 * n + j) / 64 = n := by omega
  have hmod : (64 * n + j) % 64 = j := by omega
  simp only [State.runInit_upcomingByte, hdiv, hmod]

/-- After INIT, SEEK to block `n` and 64 bytes leave the engine that has served blocks 0 to `n` (R95). -/
theorem State.runInit_sought_afterBytes (s : State) {n : Nat} (hn : n < 2 ^ 64) :
    (s.runInit.eng.sought (BitVec.ofNat 64 n)).afterBytes 64 = s.runInit.eng.afterBytes (64 * (n + 1)) := by
  have h := s.runInit.eng.sought_afterBytes rfl rfl (n := n) (by rw [State.runInit_ctr]; simpa using hn)
  rwa [State.runInit_ctr, show (0 : BitVec 64) + BitVec.ofNat 64 n = BitVec.ofNat 64 n from BitVec.zero_add _] at h

/-- Settles O39: after INIT and after SEEK to block 0 the upcoming bytes are those of block 0 and on, and so is the
keystream from its start. -/
theorem seekZeroReplaysTheStreamOfInit : Obligations.SeekZeroReplaysTheStreamOfInit := by
  intro s running h0 heven hlo hhi
  have hindex : s.runInit.eng.args.seekIndex = 0 := by
    rw [State.runInit_args, ArgRegs.seekIndex, hlo, hhi]
    rfl
  have hseek := exec_seek_accepted (cmdCheck_seek_none (s := s.runInit) running rfl)
  rw [hindex] at hseek
  refine ⟨_, _, exec_init_accepted (cmdCheck_init_none running h0 heven), hseek, s.runInit_ctr, rfl,
    s.runInit.eng.sought_ctr 0, rfl, s.runInit_bytesLeft, s.runInit.eng.bytesLeft_sought 0, fun j => ?_⟩
  rw [Engine.keystreamByte_eq_blockBytes]
  refine ⟨s.runInit_upcomingByte j, (s.runInit.eng.upcomingByte_sought 0 j).trans ?_⟩
  simp

/-! ### Memory after a READ -/

/-- `new` is `old` but for `n` bytes from `a` up. -/
def Memory.Wrote (old new : Memory) (a n : Nat) (bytes : Nat → Byte) : Prop :=
  ∀ x, Memory.lookup new x = if a ≤ x ∧ x < a + n then some (bytes (x - a)) else Memory.lookup old x

theorem Memory.Wrote.lookup_add {old new : Memory} {a n : Nat} {bytes : Nat → Byte}
    (h : Memory.Wrote old new a n bytes) {j : Nat} (hj : j < n) : Memory.lookup new (a + j) = some (bytes j) := by
  rw [h, if_pos (by omega), Nat.add_sub_cancel_left]

/-- Of two writes to one range the second stands. -/
theorem Memory.Wrote.overwrite {old mid new : Memory} {a n : Nat} {bytes bytes' : Nat → Byte}
    (h : Memory.Wrote old mid a n bytes) (h' : Memory.Wrote mid new a n bytes') :
    Memory.Wrote old new a n bytes' := by
  intro x
  rw [h' x, h x]
  split <;> rfl

/-- The same bytes written to the same memory read the same. -/
theorem Memory.Wrote.lookup_congr {old new new' : Memory} {a n : Nat} {bytes bytes' : Nat → Byte}
    (h : Memory.Wrote old new a n bytes) (h' : Memory.Wrote old new' a n bytes')
    (hbytes : ∀ j, j < n → bytes j = bytes' j) (x : Nat) : Memory.lookup new x = Memory.lookup new' x := by
  rw [h x, h' x]
  split
  · rw [hbytes _ (by omega)]
  · rfl

/-! ### READs in a row -/

/-- READ with enough of the stream left (R97). -/
theorem exec_read_enough {s : State} (check : cmdCheck .read s = none)
    (enough : s.eng.args.len.toNat ≤ s.eng.bytesLeft) :
    ∃ mem, exec .read s = .next (State.complete
        { s with eng := s.eng.afterBytes s.eng.args.len.toNat, mem := mem } s.eng.args.len.toNat false) ∧
      Memory.Wrote s.mem mem s.eng.args.dst.toNat s.eng.args.len.toNat s.eng.upcomingByte := by
  have hread := exec_read_accepted check
  rwa [Nat.min_eq_left enough, decide_eq_false (Nat.not_lt.2 enough)] at hread

/-- READs in a row, each of all its bytes to the same range: together they serve the bytes of all, and the last one's
bytes are left in memory (R97). -/
theorem execTimes_read_enough (n : Nat) {s : State} (check : cmdCheck .read s = none)
    (enough : s.eng.args.len.toNat * (n + 1) ≤ s.eng.bytesLeft) :
    ∃ mem, execTimes .read (n + 1) s = .next (State.complete
        { s with eng := s.eng.afterBytes (s.eng.args.len.toNat * (n + 1)), mem := mem } s.eng.args.len.toNat false) ∧
      Memory.Wrote s.mem mem s.eng.args.dst.toNat s.eng.args.len.toNat
        fun j => s.eng.upcomingByte (s.eng.args.len.toNat * n + j) := by
  induction n generalizing s with
  | zero =>
    obtain ⟨mem, hrun, hmem⟩ := exec_read_enough check (by simpa using enough)
    refine ⟨mem, ?_, by simpa using hmem⟩
    rw [execTimes, hrun, Nat.zero_add, Nat.mul_one]
    rfl
  | succ n ih =>
    have hsum : s.eng.args.len.toNat * (n + 1 + 1) = s.eng.args.len.toNat + s.eng.args.len.toNat * (n + 1) := by
      rw [Nat.mul_add_one, Nat.add_comm]
    rw [hsum] at enough
    have hleft := s.eng.bytesLeft_afterBytes s.eng.args.len.toNat (by omega)
    obtain ⟨mem, hrun, hmem⟩ := exec_read_enough check (by omega)
    obtain ⟨mem', hrun', hmem'⟩ := ih (s := State.complete
      { s with eng := s.eng.afterBytes s.eng.args.len.toNat, mem := mem } s.eng.args.len.toNat false) check
      (show s.eng.args.len.toNat * (n + 1) ≤ (s.eng.afterBytes s.eng.args.len.toNat).bytesLeft by omega)
    have hbytes : (fun j => (s.eng.afterBytes s.eng.args.len.toNat).upcomingByte (s.eng.args.len.toNat * n + j)) =
        fun j => s.eng.upcomingByte (s.eng.args.len.toNat * (n + 1) + j) := by
      funext j
      rw [Engine.upcomingByte_afterBytes, Nat.mul_add_one, ← Nat.add_assoc, Nat.add_comm s.eng.args.len.toNat]
    refine ⟨mem', ?_, hbytes ▸ hmem.overwrite hmem'⟩
    rw [execTimes, hrun, hsum, ← Engine.afterBytes_add _ _ _ enough]
    exact hrun'

/-! ### SEEK, then a block -/

/-- SEEK and one READ of 64 bytes: the sought engine's next 64 bytes are served and written (R94, R97). -/
theorem exec_seek_read {s : State} {n : BitVec 64} (hindex : s.eng.args.seekIndex = n) (running : s.eng.abort = false)
    (ready : s.eng.ready = true) (hlen : s.eng.args.len.toNat = 64)
    (hdst : s.eng.args.dst.toNat + 64 ≤ s.cfg.memSize) :
    ∃ t mem, exec .seek s = .next t ∧
      exec .read t =
        .next (State.complete { s with eng := (s.eng.sought n).afterBytes 64, mem := mem } 64 false) ∧
      Memory.Wrote s.mem mem s.eng.args.dst.toNat 64 (s.eng.sought n).upcomingByte := by
  have hn := n.isLt
  have hread : cmdCheck .read s = none := cmdCheck_read_none running ready (.inr (by rw [hlen]; exact hdst))
  have hleft : 64 ≤ (s.eng.sought n).bytesLeft := by rw [Engine.bytesLeft_sought]; omega
  obtain ⟨mem, hrun, hmem⟩ := exec_read_enough (s := State.complete { s with eng := s.eng.sought n } 0 false) hread
    (Nat.le_trans (Nat.le_of_eq hlen) hleft)
  simp only [State.complete_args, Engine.sought_args, hlen] at hrun hmem
  refine ⟨_, mem, hindex ▸ exec_seek_accepted (cmdCheck_seek_none running ready), hrun, hmem⟩

/-- Settles O40: both ways leave the engine after block `n`, and byte `j` of that block is what both write last. -/
theorem seekAgreesWithLinearReading : Obligations.SeekAgreesWithLinearReading := by
  intro s n hn running h0 heven hindex hlen hdst
  have hlen : s.runInit.eng.args.len.toNat = 64 := congrArg BitVec.toNat hlen
  have hcur : s.runInit.eng.cursor.val = 64 := rfl
  have hread : cmdCheck .read s.runInit = none := cmdCheck_read_none running rfl (.inr (by rw [hlen]; exact hdst))
  obtain ⟨mem, hrun, hmem⟩ := execTimes_read_enough n hread (by rw [hlen, State.runInit_bytesLeft]; omega)
  obtain ⟨u, mem', hseek, hrun', hmem'⟩ := exec_seek_read (s := s.runInit) hindex running rfl hlen hdst
  rw [hlen] at hrun hmem
  rw [State.runInit_sought_afterBytes s hn] at hrun'
  have hblock : ∀ j (hj : j < 64), s.runInit.eng.upcomingByte (64 * n + j) =
      (s.runInit.eng.blockBytes (BitVec.ofNat 64 n))[j] := fun _ hj => s.runInit_upcomingByte_block n hj
  refine ⟨_, _, u, _, exec_init_accepted (cmdCheck_init_none running h0 heven), hrun, hseek, hrun', rfl,
    hmem.lookup_congr hmem' fun j hj => (hblock j hj).trans (Engine.upcomingByte_sought_block _ _ hj).symm,
    fun j => (hmem.lookup_add j.isLt).trans (congrArg some (hblock j j.isLt)), ?_, ?_, rfl, rfl⟩
  · show (s.runInit.eng.afterBytes _).ctr = _
    rw [Engine.afterBytes_ctr, Engine.refills_blocks hcur, State.runInit_ctr]
    exact BitVec.zero_add _
  · show (s.runInit.eng.afterBytes _).cursor.val = _
    rw [Engine.afterBytes_cursor, Engine.refills_blocks hcur, hcur]
    omega

/-- Settles O41: the block sought is the last one, 64 bytes are left of it, and they end the stream (O27). -/
theorem exhaustionBoundary : Obligations.ExhaustionBoundary := by
  intro s running ready hlo hhi hlen hdst
  have hindex : s.eng.args.seekIndex = BitVec.allOnes 64 := by rw [ArgRegs.seekIndex, hlo, hhi]; rfl
  have hleft : (s.eng.sought (BitVec.allOnes 64)).bytesLeft = 64 := by rw [Engine.bytesLeft_sought]; rfl
  obtain ⟨hcur, hx⟩ := (s.eng.sought (BitVec.allOnes 64)).afterBytes_all
  rw [hleft] at hcur hx
  obtain ⟨t, mem, hseek, hrun, _⟩ := exec_seek_read hindex running ready (congrArg BitVec.toNat hlen) hdst
  refine ⟨t, _, hseek, hrun, rfl, rfl, hx, ?_, fun dst len hlen hdst => ?_⟩
  · show (Engine.afterBytes _ 64).ctr = 0
    rw [Engine.afterBytes_ctr, Engine.sought_ctr, show Engine.refills _ 64 = 0 by simp [Engine.refills]]
    rfl
  · exact ⟨_, readAtTheEndOfTheStream _ running ready hx hcur hlen hdst, rfl, rfl, rfl, rfl⟩

/-! ### An exclusive-or taken back -/

/-- An XOR with enough of the stream left, whose source bytes hold values and whose ranges are the same or disjoint,
writes each of them exclusive-or its stream byte (R100). -/
theorem exec_xor_separate {s : State} (check : cmdCheck .xor s = none)
    (enough : s.eng.args.len.toNat ≤ s.eng.bytesLeft)
    (separate : s.eng.args.src.toNat = s.eng.args.dst.toNat ∨
      s.eng.args.src.toNat + s.eng.args.len.toNat ≤ s.eng.args.dst.toNat ∨
      s.eng.args.dst.toNat + s.eng.args.len.toNat ≤ s.eng.args.src.toNat) {bytes : Nat → Byte}
    (hbytes : ∀ j, j < s.eng.args.len.toNat → Memory.lookup s.mem (s.eng.args.src.toNat + j) = some (bytes j)) :
    ∃ t, exec .xor s = .next t ∧ t.eng.count.toNat = s.eng.args.len.toNat ∧ t.eng.err = .ok ∧
      ∀ j, j < s.eng.args.len.toNat →
        Memory.lookup t.mem (s.eng.args.dst.toNat + j) = some (bytes j ^^^ s.eng.upcomingByte j) := by
  obtain ⟨mem, draws, hrun, _, _, hmem⟩ := exec_xor_accepted check
  rw [if_neg (Nat.not_lt.2 enough)] at hrun
  refine ⟨_, hrun, toNat_count (Nat.le_refl _), rfl, fun j hj => ?_⟩
  obtain ⟨v, hv, hsrc⟩ := hmem j (by omega)
  rw [if_neg (by omega), hbytes j hj] at hsrc
  simp only [Option.some.injEq, reduceCtorEq, false_and, or_false] at hsrc
  rw [hsrc]
  exact hv

/-- The words other than the counter's and a counter make the matrix (R17). -/
theorem Matrix.withCtr_congr {m m' : Matrix} (h : ∀ k : Fin 16, k ≠ 12 → k ≠ 13 → m[k] = m'[k]) (c : BitVec 64) :
    Matrix.withCtr m c = Matrix.withCtr m' c :=
  Matrix.ext_ctr (by simp) fun i hi h12 h13 => by
    rw [Matrix.withCtr_getElem_other _ _ i hi h12 h13, Matrix.withCtr_getElem_other _ _ i hi h12 h13]
    exact h ⟨i, hi⟩ (Fin.ne_of_val_ne h12) (Fin.ne_of_val_ne h13)

/-- The keystream depends on key, nonce, constants and round count alone (R82). -/
theorem Engine.keystreamByte_congr {e f : Engine} (hrounds : e.roundCount = f.roundCount)
    (hm : ∀ k : Fin 16, k ≠ 12 → k ≠ 13 → e.m[k] = f.m[k]) (p : Nat) : e.keystreamByte p = f.keystreamByte p := by
  simp only [Engine.keystreamByte, Engine.blockBytes, hrounds, Matrix.withCtr_congr hm]

/-- Settles O42: the second XOR finds the first one's output and takes the same keystream bytes off it again. -/
theorem xorTwiceRestoresTheInput : Obligations.XorTwiceRestoresTheInput := by
  rintro s t u hs hu running ready running' ready' n _ _ _ _ hn rfl rfl hn' rfl rfl hsrc hdst hsrc' hdst'
    separate separate' enough enough' hrounds hm hpos hrun hvalues hsame
  subst hn
  rw [hn'] at hsrc' hdst' separate' enough'
  obtain ⟨bytes, hbytes⟩ : ∃ bytes : Nat → Byte, ∀ j, j < s.eng.args.len.toNat →
      Memory.lookup s.mem (s.eng.args.src.toNat + j) = some (bytes j) :=
    ⟨fun j => (Memory.lookup s.mem (s.eng.args.src.toNat + j)).getD 0, fun j hj => by
      obtain ⟨v, hv⟩ := Option.isSome_iff_exists.1 (hvalues j hj)
      simp only [hv, Option.getD_some]⟩
  obtain ⟨_, hfirst, _, _, hout⟩ :=
    exec_xor_separate (cmdCheck_xor_none running ready (.inr hsrc) (.inr hdst)) enough separate hbytes
  rw [hrun] at hfirst
  cases hfirst
  have hstream : ∀ j, j < s.eng.args.len.toNat → u.eng.upcomingByte j = s.eng.upcomingByte j := by
    intro j hj
    rw [upcomingBytesAreTheKeystream s.eng hs.flags hs.buffer j (by omega),
      upcomingBytesAreTheKeystream u.eng hu.flags hu.buffer j (by omega), hpos, Engine.keystreamByte_congr hrounds hm]
  obtain ⟨w, hw, hcount, herr, hback⟩ :=
    exec_xor_separate (cmdCheck_xor_none running' ready' (.inr hsrc') (.inr hdst')) enough' separate'
      (fun j hj => (hsame j (hn' ▸ hj)).trans (hout j (hn' ▸ hj)))
  refine ⟨w, hw, hcount.trans hn'.symm, herr, fun j hj => ?_⟩
  rw [hback j (hn' ▸ hj), hbytes j hj, hstream j hj, BitVec.xor_assoc, BitVec.xor_self, BitVec.xor_zero]

end Sys2Proof.Machine
end

section
/-! SUPPORT. The host's accesses one by one (R110 to R117): what a register read returns, where a register write ends
up, which accesses are bus errors, a CMD write of a command, and data memory read back. From them, O11, O46, O48, O49, O50
and O52. -/

namespace Sys2Proof.Machine

/-! ### The state in which the next operation runs -/

theorem State.advance_cons {s : State} {op : HostOp} {rest : List HostOp} (h : s.host.script = op :: rest) :
    s.advance = { s with host := { s.host with script := rest, position := s.host.position + 1 } } := by
  simp only [State.advance, h, List.tail_cons]

/-! ### The slots of a range of offsets -/

/-- The offsets below 0x20 are the key registers' (R59). -/
theorem Slot.eq_key_of_offset_lt {r : Slot} (h : r.offset.toNat < 0x20) : ∃ i, r = .key i := by
  cases r with
  | key i => exact ⟨i, rfl⟩
  | reserved i => rw [Slot.reserved_offset_toNat] at h; omega
  | _ => exact absurd h (by decide)

/-- The offsets from 0x58 up are the reserved slots' (R59). -/
theorem Slot.eq_reserved_of_le_offset {r : Slot} (h : 0x58 ≤ r.offset.toNat) : ∃ i, r = .reserved i := by
  cases r with
  | reserved i => exact ⟨i, rfl⟩
  | key i => rw [Slot.key_offset_toNat] at h; omega
  | _ => exact absurd h (by decide)

/-! ### Register reads -/

/-- A register read adds the slot's value to the readings and has no other effect (R110). -/
theorem step_readWord {s : State} {r : Slot} {rest : List HostOp} (h : s.host.script = .read .word r.offset :: rest) :
    step s = .next { s with host := { script := rest, position := s.host.position + 1,
                                      readings := .register (s.eng.readSlot r) :: s.host.readings } } := by
  refine step_cons_pass h ?_ (Bool.eq_false_or_eq_true _)
  simp [runHostOp, accessSlot_word, State.observe, State.advance_cons h]

/-- A slot's value is the one of the named register at its offset. -/
theorem Engine.readSlot_of_offset (e : Engine) {r : Slot} (r' : Slot) (h : r.offset = r'.offset) :
    e.readSlot r = e.readSlot r' := by
  rw [Slot.offset_inj h]

/-- The key registers read 0 (R113). -/
theorem Engine.readSlot_key_range (e : Engine) {r : Slot} (h : r.offset.toNat < 0x20) : e.readSlot r = 0 := by
  obtain ⟨i, rfl⟩ := Slot.eq_key_of_offset_lt h
  rfl

/-- Reserved slots read 0 (R112). -/
theorem Engine.readSlot_reserved_range (e : Engine) {r : Slot} (h : 0x58 ≤ r.offset.toNat) : e.readSlot r = 0 := by
  obtain ⟨i, rfl⟩ := Slot.eq_reserved_of_le_offset h
  rfl

/-- CURSOR loses nothing of the cursor (R38). -/
theorem Engine.cursorWord_toNat (e : Engine) : e.cursorWord.toNat = e.cursor.val :=
  Nat.mod_eq_of_lt (by omega)

/-- Settles O46: the aligned offset names one slot, and the slot is settled by each clause's offset or range. -/
theorem registerReadReturnsItsTableValue : Obligations.RegisterReadReturnsItsTableValue := by
  intro s off rest hscript haligned
  obtain ⟨r, -, rfl⟩ := Slot.exists_ofOffset haligned
  have named (r' : Slot) : r.offset = r'.offset → s.eng.readSlot r = s.eng.readSlot r' :=
    s.eng.readSlot_of_offset r'
  exact ⟨s.eng.readSlot r, step_readWord hscript, s.eng.readSlot_key_range, named .nonce0, named .nonce1,
    named .rounds, named .seekLo, named .seekHi, named .src, named .dst, named .len, named .cmd, named .status,
    named .count, named .ctrLo, named .ctrHi,
    fun h => (congrArg BitVec.toNat (named .cursor h)).trans s.eng.cursorWord_toNat, s.eng.readSlot_reserved_range⟩

/-! ### Register writes -/

/-- A write to an argument register is what it then holds (R111). -/
theorem ArgRegs.get_write_same (a : ArgRegs) {r : Slot} (v : Word) (h : r.offset.toNat < 0x40) :
    (a.write r v).get r = v := by
  cases r with
  | key i => exact (a.write_key_getElem i i v).trans (if_pos rfl)
  | nonce0 | nonce1 | rounds | seekLo | seekHi | src | dst | len => rfl
  | cmd | status | count | ctrLo | ctrHi | cursor => exact absurd h (by decide)
  | reserved i => rw [Slot.reserved_offset_toNat] at h; omega

/-- It leaves every other argument register alone (R111). -/
theorem ArgRegs.get_write_other (a : ArgRegs) {r r' : Slot} (v : Word) (h : r' ≠ r) :
    (a.write r v).get r' = a.get r' := by
  cases r with
  | key i =>
    cases r' with
    | key j => exact (a.write_key_getElem i j v).trans (if_neg fun hji => h (congrArg Slot.key hji))
    | _ => rfl
  | _ => cases r' <;> simp [ArgRegs.write, ArgRegs.get] at h ⊢

/-- From 0x44 up no slot is an argument register (R112, R113). -/
theorem ArgRegs.write_readOnly (a : ArgRegs) {r : Slot} (v : Word) (h : 0x44 ≤ r.offset.toNat) : a.write r v = a := by
  cases r with
  | key i => rw [Slot.key_offset_toNat] at h; omega
  | nonce0 | nonce1 | rounds | seekLo | seekHi | src | dst | len => exact absurd h (by decide)
  | cmd | status | count | ctrLo | ctrHi | cursor | reserved i => rfl

/-- Settles O48: an offset below 0x40 is not CMD's, and slots at different offsets are different slots. -/
theorem argumentWriteStoresOnlyThere : Obligations.ArgumentWriteStoresOnlyThere := by
  intro s off v rest hscript haligned hlt
  obtain ⟨r, -, rfl⟩ := Slot.exists_ofOffset haligned
  have hcmd : r ≠ .cmd := by rintro rfl; exact absurd hlt (by decide)
  refine ⟨s.eng.args.write r v, step_writeOp hcmd hscript, fun r' => ?_⟩
  split
  case isTrue hoff => rw [Slot.offset_inj hoff, ArgRegs.get_write_same _ _ hlt]
  case isFalse hoff => exact ArgRegs.get_write_other _ _ fun hr => hoff (hr ▸ rfl)

/-- Settles O49: an offset from 0x44 up is not CMD's and stores nothing; the three ranges of the reads are slots whose
value is 0. -/
theorem readOnlyAndReservedWritesAreIgnored : Obligations.ReadOnlyAndReservedWritesAreIgnored := by
  refine ⟨fun s off v rest hscript haligned hle => ?_, fun s off rest hscript haligned hrange => ?_⟩
  · obtain ⟨r, -, rfl⟩ := Slot.exists_ofOffset haligned
    have hcmd : r ≠ .cmd := by rintro rfl; exact absurd hle (by decide)
    rw [step_writeOp hcmd hscript, ArgRegs.write_readOnly _ _ hle]
  · obtain ⟨r, -, rfl⟩ := Slot.exists_ofOffset haligned
    have hzero : s.eng.readSlot r = 0 := by
      obtain hkey | hcmd | hreserved := hrange
      · exact s.eng.readSlot_key_range hkey
      · exact s.eng.readSlot_of_offset .cmd hcmd
      · exact s.eng.readSlot_reserved_range hreserved
    rw [step_readWord hscript, hzero]

/-! ### Bus errors -/

/-- A narrow, wide or misaligned access reaches no slot (R115). -/
theorem accessSlot_eq_none {width : AccessWidth} {off : BitVec 8} (h : width ≠ .word ∨ off.toNat % 4 ≠ 0) :
    accessSlot width off = none := by
  cases width with
  | byte | half | wide => rfl
  | word => exact Slot.ofOffset_eq_none_iff.2 (h.resolve_left fun hne => hne rfl)

/-- Settles O50: an access that reaches no slot faults before it does anything. -/
theorem unalignedOrNarrowAccessIsABusError : Obligations.UnalignedOrNarrowAccessIsABusError := by
  intro s width off v rest hbad hscript
  obtain hscript | hscript := hscript
  · exact step_cons_fault hscript (by simp [runHostOp, accessSlot_eq_none hbad])
  · exact step_cons_fault hscript (by simp [runHostOp, accessSlot_eq_none hbad])

/-! ### A CMD write of a command -/

/-- The fault around an operation that answers a next state, as one equation (R126). -/
theorem faultOnHalt_next_eq_ite (e : Engine) (t : State) :
    faultOnHalt e (.next t) = if e.abort = false ∧ t.eng.abort = true then .fault .exhaustionAbort else .next t := by
  simp [faultOnHalt]

/-- Settles O11: the value is the command's own word, the step is `exec` under the fault, and `exec` always answers a
next state. -/
theorem stepRunsTheDecodedCommand : Obligations.StepRunsTheDecodedCommand := by
  intro s v i rest hscript hdecode
  obtain rfl := decode_ok hdecode
  obtain ⟨t, hexec, -⟩ := exec_commandStep i
    { s with host := { s.host with script := rest, position := s.host.position + 1 } }
  exact ⟨t, hexec, by rw [step_cmdOp hscript, hexec, faultOnHalt_next_eq_ite]⟩

/-! ### Data memory -/

/-- A host write inside data memory leaves its bytes there and changes nothing else (R117, R41). -/
theorem step_memWrite {s : State} {a : Nat} {bytes : List Byte} {rest : List HostOp}
    (h : s.host.script = .memWrite a bytes :: rest) (hrange : bytes.length = 0 ∨ a + bytes.length ≤ s.cfg.memSize) :
    ∃ mem, step s = .next { s with
        mem := mem
        host := { s.host with script := rest, position := s.host.position + 1 } } ∧
      (∀ j (h : j < bytes.length), Memory.lookup mem (a + j) = some bytes[j]) ∧
      ∀ x, ¬ (a ≤ x ∧ x < a + bytes.length) → Memory.lookup mem x = Memory.lookup s.mem x := by
  obtain ⟨mem, hrun, hin, hout⟩ := State.memWriteBytes_spec bytes a s.advance
  refine ⟨mem, step_cons_pass h ?_ (Bool.eq_false_or_eq_true _), hin, hout⟩
  simp only [HostOp.resolve_memWrite, runHostOp, State.advance_cfg, (Config.inRange_iff _ _ _).2 hrange, if_true, hrun]
  rw [State.advance_cons h]

/-- A host read of bytes that hold values returns them and changes nothing but the host (R117, R41). -/
theorem step_memRead_listed {s : State} {a : Nat} {bytes : List Byte} {rest : List HostOp}
    (h : s.host.script = .memRead a bytes.length :: rest)
    (hrange : bytes.length = 0 ∨ a + bytes.length ≤ s.cfg.memSize)
    (hbytes : ∀ j (h : j < bytes.length), Memory.lookup s.mem (a + j) = some bytes[j]) :
    step s = .next { s with host := { script := rest, position := s.host.position + 1,
                                      readings := .memory bytes :: s.host.readings } } := by
  refine step_cons_pass h ?_ (Bool.eq_false_or_eq_true _)
  simp only [HostOp.resolve_memRead, runHostOp, State.advance_cfg, (Config.inRange_iff _ _ _).2 hrange, if_true,
    State.memReadBytes_listed bytes a s.advance hbytes]
  rw [State.advance_cons h, State.observe]

/-- Settles O52: the write leaves the bytes listed, and a read of listed bytes returns them and draws no free byte. -/
theorem hostReadsBackWhatItWrote : Obligations.HostReadsBackWhatItWrote := by
  intro s a bytes rest hscript hrange
  obtain ⟨mem, hwrite, hin, hout⟩ := step_memWrite hscript hrange
  exact ⟨_, _, hwrite, step_memRead_listed rfl hrange hin, rfl, rfl, rfl, rfl, hin, hout⟩

end Sys2Proof.Machine
end

section
/-! SUPPORT. What a CMD write leaves in ERR (R129), and who sets and clears READY and the halted state (R123, R126,
R127); a range that does not fit (R124); what a register read can tell of the engine (R136). From them, O19, O21, O22,
O23, O51 and O55. -/

namespace Sys2Proof.Machine

/-! ### The code a CMD write leaves in ERR -/

/-- The code of an accepted command: only XOR can fail, and it does where the stream is too short (R125, R126). -/
def acceptedCode (i : Instr) (s : State) : ErrCode :=
  if i = .xor ∧ s.eng.bytesLeft < s.eng.args.len.toNat then .exhaustionAbort else .ok

/-- A command leaves the code of the check that failed, or the one of its own run. -/
theorem exec_err (i : Instr) (s : State) :
    ∃ t, exec i s = .next t ∧ t.eng.err = (cmdCheck i s).getD (acceptedCode i s) := by
  cases check : cmdCheck i s with
  | some code => exact ⟨_, exec_rejected check, rfl⟩
  | none =>
    cases i with
    | init => exact ⟨_, exec_init_accepted check, rfl⟩
    | seek => exact ⟨_, exec_seek_accepted check, rfl⟩
    | read =>
      obtain ⟨_, hrun, -⟩ := exec_read_accepted check
      exact ⟨_, hrun, rfl⟩
    | xor =>
      obtain ⟨_, _, hrun, -⟩ := exec_xor_accepted check
      refine ⟨_, hrun, ?_⟩
      by_cases hshort : s.eng.bytesLeft < s.eng.args.len.toNat <;> simp [acceptedCode, hshort]

/-- InRange fails for a range of LEN bytes exactly where LEN is not 0 and the range ends past data memory (R47). -/
theorem Config.inRange_len_eq_false_iff (c : Config) (a : Nat) (len : Word) :
    Config.inRange c a len.toNat = false ↔ len ≠ 0 ∧ c.memSize < a + len.toNat := by
  rw [← Bool.not_eq_true, Config.inRange_iff, not_or, Nat.not_le, ne_eq, ← BitVec.toNat_inj]
  rfl

theorem dstInRange_eq_false_iff (s : State) :
    s.dstInRange = false ↔ s.eng.args.len ≠ 0 ∧ s.cfg.memSize < s.eng.args.dst.toNat + s.eng.args.len.toNat :=
  Config.inRange_len_eq_false_iff _ _ _

theorem srcInRange_eq_false_iff (s : State) :
    s.srcInRange = false ↔ s.eng.args.len ≠ 0 ∧ s.cfg.memSize < s.eng.args.src.toNat + s.eng.args.len.toNat :=
  Config.inRange_len_eq_false_iff _ _ _

/-- A CMD write runs the command whose word it is. -/
theorem cmdWrite_encode (i : Instr) (s : State) : cmdWrite (encode i) s = exec i s := by
  rw [cmdWrite, decode_encode]

/-- Settles O19: an illegal value is rejected by `illegalCode`; a command leaves the code of its first failing check,
which the equations of `cmdCheck` give in R129's order, or else the code of its own run. -/
theorem commandOutcomeFollowsThePriority : Obligations.CommandOutcomeFollowsThePriority := by
  intro s v
  by_cases hlegal : ∃ i, v = encode i
  · obtain ⟨i, rfl⟩ := hlegal
    obtain ⟨t, hrun, herr⟩ := exec_err i s
    refine ⟨t, (cmdWrite_encode i s).trans hrun, herr.trans ?_⟩
    simp only [← dstInRange_eq_false_iff, ← srcInRange_eq_false_iff, ← badRounds_iff]
    cases i with
    | init => rw [cmdCheck_init]; grind [encode, acceptedCode]
    | seek => rw [cmdCheck_seek]; grind [encode, acceptedCode]
    | read => rw [cmdCheck_read]; grind [encode, acceptedCode]
    | xor => rw [cmdCheck_xor]; grind [encode, acceptedCode]
  · have hillegal : ∀ i, v ≠ encode i := fun i h => hlegal ⟨i, h⟩
    refine ⟨_, cmdWrite_illegal s hillegal, ?_⟩
    have h4 : v ≠ 1 ∧ v ≠ 2 ∧ v ≠ 3 ∧ v ≠ 4 := ⟨hillegal .init, hillegal .seek, hillegal .read, hillegal .xor⟩
    rw [State.reject_err, illegalCode, if_pos h4]

/-! ### READY -/

/-- `ready` is set by INIT alone (R26, R123). -/
theorem EngineStep.ready_set {op : Option HostOp} {s : State} {e : Engine} (h : EngineStep op s e)
    (hs : s.eng.ready = false) (he : e.ready = true) : op = some (cmdOp .init) ∧ e.err = .ok := by
  cases h with
  | init hop => exact ⟨hop, rfl⟩
  | reset => cases he
  | same | rejected | argument | seek | read | xor | xorAbort => exact absurd (hs.symm.trans he) (by decide)

/-- `ready` is cleared by reset alone (R26, R123). -/
theorem EngineStep.ready_cleared {op : Option HostOp} {s : State} {e : Engine} (h : EngineStep op s e)
    (hs : s.eng.ready = true) (he : e.ready = false) : op = some .reset ∨ ∃ v, op = some (.resetDuring v) := by
  cases h with
  | reset hop => exact hop
  | init => cases he
  | same | rejected | argument | seek | read | xor | xorAbort => exact absurd (hs.symm.trans he) (by decide)

/-- An INIT that leaves OK has run: no rejection leaves it (R91, R121). -/
theorem exec_init_ok {s t : State} (h : exec .init s = .next t) (hok : t.eng.err = .ok) : t.eng.ready = true := by
  cases commandStep_of_exec h with
  | rejected code check => exact absurd hok (cmdCheck_some_code check).1
  | init => rfl

/-- Settles O21: a step changes the engine as `EngineStep` says, and INIT and reset alone touch `ready`. -/
theorem readyStandsFromInitToReset : Obligations.ReadyStandsFromInitToReset :=
  ⟨rfl, fun _ _ => exec_notReady, fun _ _ h => (step_engine_nextOp h).ready_set,
    fun _ _ h => (step_engine_nextOp h).ready_cleared, fun _ _ => exec_init_ok⟩

/-! ### A range that does not fit -/

/-- With LEN = 0 no command answers RANGE (R47, R124). -/
theorem exec_err_ne_range {i : Instr} {s t : State} (hlen : s.eng.args.len = 0) (h : exec i s = .next t) :
    t.eng.err ≠ .range := by
  cases commandStep_of_exec h with
  | rejected code check =>
    obtain ⟨_, _, _, _, _, _, hrange⟩ := cmdCheck_some_code check
    exact fun herr => (hrange herr).2 hlen
  | init | seek | read | xor | xorAbort => nofun

/-- Settles O22: the range check of READ and XOR fails, and a rejection writes `err` alone. -/
theorem rangeIsCheckedBeforeAnythingRuns : Obligations.RangeIsCheckedBeforeAnythingRuns := by
  refine ⟨?_, fun i s t => exec_err_ne_range⟩
  rintro i s _ rfl h0 running ready (⟨rfl, hdst⟩ | ⟨rfl, hrange⟩)
  · exact exec_read_outOfRange running ready h0 hdst
  · exact exec_xor_outOfRange running ready h0 hrange

/-! ### The halted state -/

/-- While halted every CMD write is rejected with HALTED, of a command or not (R127, R129). -/
theorem cmdWrite_halted {s : State} (v : Word) (halted : s.eng.abort = true) :
    cmdWrite v s = .next (s.reject .halted) := by
  unfold cmdWrite
  split
  · exact exec_halted _ halted
  · rw [illegalCode, if_pos halted]

/-- `abort` is cleared by reset alone (R127). -/
theorem EngineStep.abort_cleared {op : Option HostOp} {s : State} {e : Engine} (h : EngineStep op s e)
    (hs : s.eng.abort = true) (he : e.abort = false) :
    (op = some .reset ∨ ∃ v, op = some (.resetDuring v)) ∧ e = Engine.reset := by
  cases h with
  | reset hop => exact ⟨hop, rfl⟩
  | xorAbort => cases he
  | same | rejected | argument | init | seek | read | xor => exact absurd (hs.symm.trans he) (by decide)

/-- `abort` is set by an accepted XOR whose stream is too short, and by nothing else (R27, R126). -/
theorem EngineStep.abort_set {op : Option HostOp} {s : State} {e : Engine} (h : EngineStep op s e)
    (hs : s.eng.abort = false) (he : e.abort = true) :
    op = some (cmdOp .xor) ∧ cmdCheck .xor s = none ∧ s.eng.bytesLeft < s.eng.args.len.toNat ∧
      e.err = .exhaustionAbort := by
  cases h with
  | xorAbort hop check short => exact ⟨hop, check, short, rfl⟩
  | reset => cases he
  | same | rejected | argument | init | seek | read | xor => exact absurd (hs.symm.trans he) (by decide)

/-- Settles O23: a CMD write is rejected with HALTED, other accesses do not look at `abort`, and reset alone clears
it. -/
theorem haltedUntilReset : Obligations.HaltedUntilReset := by
  refine ⟨fun s v rest halted hscript => ?_, fun _ _ _ _ => step_readWord, fun _ _ _ _ _ => step_writeOp,
    fun s t h => (step_engine_nextOp h).abort_cleared⟩
  rw [step_writeCmd hscript, cmdWrite_halted, faultOnHalt_pass (.inl halted)]
  · rfl
  · exact halted

/-! ### Entering the halted state -/

/-- An accepted XOR with fewer bytes left than LEN halts the engine (R126). -/
theorem exec_xor_short {s : State} (check : cmdCheck .xor s = none)
    (short : s.eng.bytesLeft < s.eng.args.len.toNat) : ∃ t, exec .xor s = .next t ∧ t.eng.abort = true := by
  obtain ⟨_, _, hrun, -⟩ := exec_xor_accepted check
  exact ⟨_, hrun, by simp [short]⟩

/-- A CMD write always ends in a next state (R90). -/
theorem cmdWrite_next (v : Word) (s : State) : ∃ t, cmdWrite v s = .next t :=
  (commandOutcomeFollowsThePriority s v).imp fun _ h => h.1

/-- A register write that reaches a slot always ends in a next state (R111 to R114). -/
theorem writeSlot_next (r : Slot) (v : Word) (s : State) : ∃ t, writeSlot r v s = .next t := by
  cases r with
  | cmd => exact cmdWrite_next v s
  | _ => exact ⟨_, rfl⟩

/-- No operation of the host raises the fault of the abort by itself; the step around it does (log 3). -/
theorem runHostOp_ne_exhaustionAbort (op : HostOp) (s : State) : runHostOp op s ≠ .fault .exhaustionAbort := by
  cases op with
  | write width off v =>
    simp only [runHostOp]
    split
    · rename_i r _
      obtain ⟨t, ht⟩ := writeSlot_next r v s
      simp [ht]
    · simp
  | read | memWrite | memRead => simp only [runHostOp]; split <;> simp
  | busWrite | busRead | busMemWrite | busMemRead | reset | resetDuring => nofun

/-- The abort's fault is the operation's own, or the operation entered the halted state (R126). -/
theorem faultOnHalt_eq_exhaustionAbort {e : Engine} {o : Host.Outcome State Fault Refusal}
    (h : faultOnHalt e o = .fault .exhaustionAbort) :
    o = .fault .exhaustionAbort ∨ ∃ t, o = .next t ∧ e.abort = false ∧ t.eng.abort = true := by
  cases o with
  | next t =>
    rw [faultOnHalt_next_eq_ite] at h
    split at h
    case isTrue hentered => exact .inr ⟨t, rfl, hentered⟩
    case isFalse => cases h
  | fault r => exact .inl h
  | refused r => cases h

/-- A step that raises the abort's fault runs an operation that enters the halted state (R126). -/
theorem step_exhaustionAbort {s : State} (h : step s = .fault .exhaustionAbort) :
    ∃ e, EngineStep s.nextOp s e ∧ s.eng.abort = false ∧ e.abort = true := by
  cases hscript : s.host.script with
  | nil => rw [step_nil hscript] at h; cases h
  | cons op rest =>
    rw [step_cons hscript] at h
    obtain hfault | ⟨t, hrun, running, halted⟩ := faultOnHalt_eq_exhaustionAbort h
    · exact absurd hfault (runHostOp_ne_exhaustionAbort _ _)
    · refine ⟨t.eng, ?_, running, halted⟩
      rw [State.nextOp, hscript]
      exact (runHostOp_engine hrun).advance

/-- Settles O55: the step around an operation faults where that operation sets `abort`, which a short XOR alone does. -/
theorem enteringTheHaltedStateFaults : Obligations.EnteringTheHaltedStateFaults := by
  refine ⟨?_, fun s h => ?_, fun s t => step_abort, fun i s t h running halted => ?_⟩
  · rintro s _ hop rfl running ready hsrc hdst short
    have check : cmdCheck .xor s.advance = none := cmdCheck_xor_none running ready (.inr hsrc) (.inr hdst)
    obtain ⟨t, hrun, halted⟩ := exec_xor_short check short
    rw [step_writesCommand hop, faultOnHalt_entered hrun running halted]
  · obtain ⟨e, hstep, running, halted⟩ := step_exhaustionAbort h
    obtain ⟨hop, check, short, -⟩ := hstep.abort_set running halted
    exact ⟨hop, running, cmdCheck_none_ready check (by decide), short⟩
  · obtain ⟨hop, -, short, herr⟩ := (exec_engine_cmdOp h).abort_set running halted
    exact ⟨cmdOp_inj.1 (Option.some.inj hop), herr, short⟩

/-! ### What a register read can tell -/

/-- No slot's value depends on the KEY registers, the output buffer, the round count or the matrix words other than the
counter's (R28, R113, R136). -/
theorem Engine.readSlot_hidden (e : Engine) (key : Vector Word 8) {m : Matrix} (outbuf : BlockBytes) (roundCount : Word)
    (h12 : m[12] = e.m[12]) (h13 : m[13] = e.m[13]) (r : Slot) :
    Engine.readSlot { e with
      args := { e.args with key := key }, m := m, outbuf := outbuf, roundCount := roundCount } r = e.readSlot r := by
  cases r with
  | ctrLo => exact h12
  | ctrHi => exact h13
  | _ => rfl

/-- What a register read leaves in the host depends on the engine through its slots' values alone (R110). -/
theorem step_read_host_congr {s t t' : State} {e : Engine} {width : AccessWidth} {off : BitVec 8} {rest : List HostOp}
    (hscript : s.host.script = .read width off :: rest) (hslots : ∀ r, e.readSlot r = s.eng.readSlot r)
    (h : step s = .next t) (h' : step { s with eng := e } = .next t') : t'.host = t.host := by
  cases hslot : accessSlot width off with
  | none =>
    rw [step_cons_fault hscript (r := .busError) (by simp [runHostOp, hslot])] at h
    cases h
  | some r =>
    obtain ⟨rfl, rfl⟩ := accessSlot_some hslot
    rw [step_readWord hscript] at h
    rw [step_readWord (s := { s with eng := e }) hscript, hslots] at h'
    cases h
    cases h'
    rfl

/-- Settles O51: a read by host address is the one by offset or is unmapped, and two such engines agree in every
slot. -/
theorem keyMaterialIsNotReadable : Obligations.KeyMaterialIsNotReadable := by
  intro s e width off addr rest t t' hscript hargs h12 h13 hcursor hexhausted hready habort heos herr hcount h h'
  have hslots : ∀ r, e.readSlot r = s.eng.readSlot r := by
    have he : e = { s.eng with
        args := { s.eng.args with key := e.args.key }, m := e.m, outbuf := e.outbuf, roundCount := e.roundCount } := by
      simp only [← hargs, ← hcursor, ← hexhausted, ← hready, ← habort, ← heos, ← herr, ← hcount]
    rw [he]
    exact s.eng.readSlot_hidden _ _ _ h12 h13
  obtain hscript | hscript := hscript
  · exact step_read_host_congr hscript hslots h h'
  · cases hoff : Config.windowOffset s.cfg addr with
    | none =>
      rw [step_cons_fault hscript (r := .unmappedAddress) (by simp [HostOp.resolve, hoff, runHostOp])] at h
      cases h
    | some off' =>
      have hresolve : HostOp.resolve s.cfg (.busRead width addr) = HostOp.resolve s.cfg (.read width off') := by
        simp [HostOp.resolve, hoff]
      rw [step_replaceHead hscript hresolve] at h
      rw [step_replaceHead (s := { s with eng := e }) hscript hresolve] at h'
      exact step_read_host_congr (s := { s with host := { s.host with script := .read width off' :: rest } }) rfl hslots
        h h'

end Sys2Proof.Machine
end

section
/-! SUPPORT. Reset (R140): what a reset event of the host's script does, what the engine's elements hold after it, and the
invariant at the state after reset. From them, O1 and O2. -/

namespace Sys2Proof.Machine

/-! ### The reset event -/

/-- A reset event passes the check on entering the halted state, as it clears `abort` (R126, R140). -/
theorem step_reset {s : State} {rest : List HostOp} (h : s.host.script = .reset :: rest) :
    step s = .next { s with
      eng := Engine.reset
      host := { s.host with script := rest, position := s.host.position + 1 } } := by
  refine step_cons_pass h ?_ (.inr rfl)
  rw [HostOp.resolve_reset, State.advance_cons h]
  rfl

/-! ### The engine's elements after reset -/

theorem Engine.reset_m (i : Fin 16) : Engine.reset.m[i] = 0 := by
  revert i
  decide

theorem Engine.reset_outbuf (j : Fin 64) : Engine.reset.outbuf[j] = 0 :=
  Vector.getElem_replicate j.isLt

theorem ArgRegs.reset_key (i : Fin 8) : ArgRegs.reset.key[i] = 0 := by
  revert i
  decide

/-- Every argument register is 0, and so is `get` at the slots that are none. -/
theorem ArgRegs.reset_get (r : Slot) : ArgRegs.reset.get r = 0 := by
  cases r with
  | key i => exact ArgRegs.reset_key i
  | _ => rfl

/-- Settles O1: the step is `step_reset`, and the matrix, the output buffer and the argument registers are 0 entry by
entry; each other element and each register read is its value in R140's table. -/
theorem resetRestoresEveryEngineElement : Obligations.ResetRestoresEveryEngineElement :=
  ⟨fun _ _ => step_reset, rfl, Engine.reset_m, Engine.reset_outbuf, rfl, rfl, rfl, rfl, rfl, rfl, rfl, rfl,
    ArgRegs.reset_get, rfl, rfl, rfl, rfl, rfl⟩

/-! ### The invariant after reset -/

/-- After reset no byte of data memory has a value (R41). -/
theorem State.reset_memoryInv : State.reset.memoryInv := ⟨rfl, nofun⟩

/-- Settles O2: no byte of data memory is listed, the flags are those of `Engine.reset_flagsInv`, and the output buffer is
used up. -/
theorem resetStateMeetsTheInvariant : Obligations.ResetStateMeetsTheInvariant where
  memory := State.reset_memoryInv
  flags := Engine.reset_flagsInv
  buffer := Engine.bufferInv_of_empty rfl

end Sys2Proof.Machine
end

section
/-! SUPPORT. Reset during a command (R141), safe runs (R126, D15), and the simplest steps of the host: none left, a
command of the opcode table, and an access outside data memory. From them, O3, O4, O12, O45 and O53. -/

namespace Sys2Proof.Machine

/-! ### Reset during a command -/

theorem State.resetDuring_eng (s : State) (v : Word) : (s.resetDuring v).eng = Engine.reset := by
  obtain ⟨hrun, _⟩ | ⟨_, _, _, _, hrun⟩ := State.resetDuring_cases s v <;> rw [hrun, State.engineReset_eng]

/-- The command and the reset that cuts it short are one step, which passes the check on entering the halted state, as
the reset clears `abort` (R126, R141). -/
theorem step_resetDuring {s : State} {v : Word} {rest : List HostOp} (h : s.host.script = .resetDuring v :: rest) :
    step s = .next (s.advance.resetDuring v) :=
  step_cons_pass h rfl (.inr (by rw [State.resetDuring_eng]; rfl))

/-- Settles O3: the step either leaves data memory as it is, and then no READ or XOR was accepted, or it forgets the
target range of an accepted one. -/
theorem resetDuringCommandLosesOnlyTheTargetBytes : Obligations.ResetDuringCommandLosesOnlyTheTargetBytes := by
  intro s v rest hscript
  have hstep := step_resetDuring hscript
  have hhost := congrArg State.host (State.advance_cons hscript)
  obtain ⟨hrun, rejected⟩ | ⟨i, hv, hi, accepted, hrun⟩ := State.resetDuring_cases s.advance v
  · rw [hrun] at hstep
    exact ⟨_, hstep, rfl, rfl, rfl, hhost, fun _ _ => rfl,
      fun i hi hv accepted => absurd accepted (rejected i hv hi), fun _ => rfl⟩
  · rw [hrun] at hstep
    refine ⟨_, hstep, rfl, rfl, rfl, hhost, fun a outside => ?_, fun _ _ _ _ a inside => ?_,
      fun rejected => absurd accepted (rejected i hi hv)⟩
    · exact (Memory.lookup_forget _ _ _ a).trans (if_neg outside)
    · exact (Memory.lookup_forget _ _ _ a).trans (if_pos inside)

/-! ### Safe runs -/

/-- Every step keeps the machine's invariant, part by part (O5, O6, O7). -/
theorem State.Inv.step {s t : State} (h : s.Inv) (hstep : Machine.step s = .next t) : t.Inv where
  memory := stepKeepsMemoryCanonical s t h.memory hstep
  flags := stepKeepsFlagsConsistent s t h.flags hstep
  buffer := stepKeepsBufferedBlock s t h.buffer hstep

/-- An engine that is not halted reports neither of the two codes of the halted state (R126, R127). -/
theorem Engine.FlagsInv.err_of_running {e : Engine} (h : e.FlagsInv) (running : e.abort = false) :
    e.err ≠ .exhaustionAbort ∧ e.err ≠ .halted := by
  rw [← not_or, ← h.halted, running]
  decide

theorem safeRun_zero_iff (s : State) : safeRun 0 s = true ↔ s.eng.abort = false := by
  simp [safeRun, State.halted]

theorem safeRun_succ_iff (n : Nat) (s : State) :
    safeRun (n + 1) s = true ↔ s.eng.abort = false ∧ ∃ t, step s = .next t ∧ safeRun n t = true := by
  rw [safeRun]
  cases step s <;> simp [State.halted]

/-- Settles O45, by induction on the number of steps: each one keeps the invariant, and the last state of a safe run is
not halted. -/
theorem safeRunsReportNoAbort : Obligations.SafeRunsReportNoAbort := by
  intro n
  induction n with
  | zero =>
    intro s hinv hsafe
    exact ⟨s, rfl, hinv, hinv.flags.err_of_running ((safeRun_zero_iff s).1 hsafe)⟩
  | succ n ih =>
    intro s hinv hsafe
    obtain ⟨-, t, hstep, hrest⟩ := (safeRun_succ_iff n s).1 hsafe
    rw [run_step n hstep]
    exact ih t (hinv.step hstep) hrest

/-! ### The host's next operation -/

/-- Settles O4: the step of an empty script is `step_nil`. -/
theorem emptyScriptIdles : Obligations.EmptyScriptIdles := fun _ => step_nil

/-- Settles O12: the table's word stands at the head of the script as a CMD write, whose step O11 gives. -/
theorem fetchWordRunsNext : Obligations.FetchWordRunsNext := fun s nbits w i hdecode =>
  stepRunsTheDecodedCommand (s.withFetchWord nbits w) (tableWord nbits w) i s.host.script rfl
    (decode_of_decodeTableWord hdecode)

/-- Settles O53: InRange fails for the range, and so the access faults before it does anything. -/
theorem hostAccessOutsideDataMemoryFaults : Obligations.HostAccessOutsideDataMemoryFaults := by
  rintro s a n bytes rest hn hpast rfl hscript
  have hrange : Config.inRange s.cfg a bytes.length = false := Config.inRange_eq_false hn hpast
  obtain hwrite | hread := hscript
  · exact step_cons_fault hwrite (by simp [runHostOp, hrange])
  · exact step_cons_fault hread (by simp [runHostOp, hrange])

end Sys2Proof.Machine
end
